-- ==== Sys2Proof/Word.lean ====
section
/-! DEFINITION. The word types of the engine (00_scope.md R6, R9): bit vectors of stated width, bit 0 least significant. -/

namespace Sys2Proof

/-- One byte: a message byte, a digest byte, the operand `imm8` (30_encoding.md R72). -/
abbrev Byte := BitVec 8

/-- The operand `imm32` (30_encoding.md R72). -/
abbrev U32 := BitVec 32

/-- One 64-bit lane, `LANE_BITS = 64` (00_scope.md R6, R13). -/
abbrev Lane := BitVec 64

/-- The 40-bit command word (30_encoding.md R70). -/
abbrev CmdWord := BitVec 40

/-- The sponge state `A[0..24]`, `STATE_LANES = 25` (10_state.md R20). Lane `i` stands at column `i mod 5`, row
`i div 5` (00_scope.md R12). -/
abbrev Lanes := Vector Lane 25

end Sys2Proof
end

