-- ==== Sys2Proof/Syntax.lean ====
section
/-! DEFINITION. The commands, and the assembler's source lines with operands as numbers (30_encoding.md R73, R78, R79). -/

namespace Sys2Proof

/-- The commands of 30_encoding.md R73, one constructor per row of spec/opcode_table.json. -/
inductive Instr where
  | init                           -- INIT
  | updateByte (imm8 : Byte)       -- UPDATE_BYTE
  | updateU32le (imm32 : U32)      -- UPDATE_U32LE
  | finalize                       -- FINALIZE
  deriving DecidableEq, Repr

/-- One line of a command program: a command (30_encoding.md R78) or a pseudo-instruction (R79). Operands are numbers
as written; whether they fit is checked by `Source.wellFormed`. -/
inductive Source where
  | init
  | updateByte (imm8 : Nat)
  | updateU32le (imm32 : Nat)
  | finalize
  | absorbBytes (bytes : List Nat)
  | absorbStr (text : List Char)
  | absorbWords (words : List Nat)
  | hashStr (text : List Char)
  deriving DecidableEq, Repr

end Sys2Proof
end

