-- ==== Sys2Proof/WellFormed.lean ====
section
/-! DEFINITION. Which commands and which source lines are well formed (30_encoding.md R72, R78). -/

namespace Sys2Proof

/-- "Every value of `imm8` and of `imm32` is legal" (30_encoding.md R72): the operand types hold exactly the legal values,
so every command is well formed. One line per command, so that a new one must say its own check. -/
def Instr.wellFormed : Instr → Bool
  | .init => true
  | .updateByte _ => true
  | .updateU32le _ => true
  | .finalize => true

/-- "An operand out of range is an assembly error" (30_encoding.md R78); text is ASCII (R79). A list of operands has at
least one, as R79 writes it (log 15). -/
def Source.wellFormed : Source → Bool
  | .init => true
  | .updateByte n => n < 2 ^ 8
  | .updateU32le n => n < 2 ^ 32
  | .finalize => true
  | .absorbBytes bs => !bs.isEmpty && bs.all (· < 2 ^ 8)
  | .absorbStr t => t.all (·.toNat < 128)
  | .absorbWords ws => !ws.isEmpty && ws.all (· < 2 ^ 32)
  | .hashStr t => t.all (·.toNat < 128)

end Sys2Proof
end

