-- ==== Sys2Proof/Decode.lean ====
section
/-! DEFINITION. The decoder, total on every 40-bit word, then the encoder, both from the tables of 30_encoding.md. -/

namespace Sys2Proof

/-- Why a word is `Illegal`. Both reasons raise the same fault, `ILLEGAL_COMMAND` (30_encoding.md R75, R76). -/
inductive Illegal where
  | reservedOpcode      -- opcode 0x00 or 0x05..0xFF (R75)
  | nonzeroMustBeZero   -- a legal opcode with a 1 in a must-be-0 bit (R76)
  deriving DecidableEq, Repr

/-- The decoder's answer: `Command | Illegal` (30_encoding.md R74). -/
inductive Decoded where
  | command (i : Instr)
  | illegal (why : Illegal)
  deriving DecidableEq, Repr

/-- Field `op`, bits [39:32] (30_encoding.md R70). -/
def opField (w : CmdWord) : Byte := w.extractLsb' 32 8

/-- Field `operand`, bits [31:0] (30_encoding.md R70). -/
def operandField (w : CmdWord) : U32 := w.extractLsb' 0 32

/-- A command whose must-be-0 bits are these (30_encoding.md R71, R76). -/
def ifZero {n : Nat} (mustBeZero : BitVec n) (i : Instr) : Decoded :=
  if mustBeZero = 0 then .command i else .illegal .nonzeroMustBeZero

/-- `Decode` (30_encoding.md R74): total, the whole word read at once. -/
def decode (w : CmdWord) : Decoded :=
  let op := opField w
  let d := operandField w
  if op = 0x01 then ifZero d .init
  else if op = 0x02 then ifZero (d.extractLsb' 8 24) (.updateByte (d.extractLsb' 0 8))
  else if op = 0x03 then .command (.updateU32le d)
  else if op = 0x04 then ifZero d .finalize
  else .illegal .reservedOpcode

/-- A command word from its two fields, `{op, operand}` (30_encoding.md R70). -/
def packWord (op : Byte) (operand : U32) : CmdWord := op ++ operand

/-- The encoder: the pattern column of 30_encoding.md R73. -/
def encode : Instr → CmdWord
  | .init => packWord 0x01 0
  | .updateByte imm8 => packWord 0x02 (imm8.setWidth 32)
  | .updateU32le imm32 => packWord 0x03 imm32
  | .finalize => packWord 0x04 0

/-- The instruction the decoder reads from a table word: one 40-bit number, bit 0 least significant, as
spec/opcode_table.json numbers it (98_reader.md). A number of more than 40 bits is no command word. Log 16. -/
def decodeTableWord (nbits w : Nat) : Option Instr :=
  let v := w % 2 ^ nbits
  if v < 2 ^ 40 then
    match decode (BitVec.ofNat 40 v) with
    | .command i => some i
    | .illegal _ => none
  else none

end Sys2Proof
end

