-- ==== Sys2Proof/Config.lean ====
section
/-! DEFINITION. What is fixed when an engine is built, the open parameters, and the free values (00_scope.md R6, R7, R8). -/

namespace Sys2Proof

/-- `PAD_MODE`, a construction-time parameter with two values (00_scope.md R7, 10_state.md R29). -/
inductive PadMode where
  | sha3    -- 0, the default: suffix byte 0x06
  | keccak  -- 1: suffix byte 0x01
  deriving DecidableEq, Repr

namespace Config

/-! The fixed constants of 00_scope.md R6 that the reference functions name. -/

/-- `RATE_LANES`: lanes 0..16, XORed with input. -/
abbrev rateLanes : Nat := 17
/-- `RATE_BYTES`: one block. -/
abbrev rateBytes : Nat := 136
/-- `DIGEST_BYTES`. -/
abbrev digestBytes : Nat := 32

/-! The open latencies of 00_scope.md R8: "each a finite integer of 1 or more". No value is given to any of them.
Log 4. -/

/-- `LAT_INIT`. Open parameter (00_scope.md R8). -/
opaque latInit : ℕ+
/-- `LAT_UPDATE_BYTE`. Open parameter (00_scope.md R8). -/
opaque latUpdateByte : ℕ+
/-- `LAT_UPDATE_U32LE`. Open parameter (00_scope.md R8). -/
opaque latUpdateU32le : ℕ+
/-- `LAT_FINALIZE`. Open parameter (00_scope.md R8). -/
opaque latFinalize : ℕ+
/-- The bound on the busy time of a word that decodes to no command; the spec names none. DESIGN CHOICE, log 5. -/
opaque latIllegal : ℕ+

/-- FREE VALUE: how long an accepted command keeps `BUSY` at 1, cut to its `LAT_*` where it is used. It may depend on the word
and on what the command works on (lanes, `PENDING`, `BYTE_INDEX`, `LANE_INDEX`, the code of `PHASE`), as 00_scope.md R8 allows
(70_reset_and_hazards.md R233, R237). Log 4. One function for all engines: log 19. -/
opaque busyDraw (count : Nat) (word : CmdWord) (lanes : Lanes) (pending : Lane) (byteIndex : BitVec 4)
  (laneIndex : BitVec 5) (phaseCode : BitVec 2) : Nat

/-- FREE VALUE: what the `PHASE` and `FAULT_CODE` fields of `STATUS` show while `BUSY = 1`
(70_reset_and_hazards.md R236). Log 6. One function for all engines: log 19. -/
opaque busyStatusFields : Nat → BitVec 4

end Config

end Sys2Proof
end

