-- ==== Sys2Proof/Machine/State.lean ====
section
/-! DEFINITION. The state of one engine: every piece of state the spec names (10_state.md R20-R36), plain data. -/

namespace Sys2Proof.Machine

/-- `PHASE`, a 2-bit register (10_state.md R25); the codes are in `Machine/Flags.lean`. -/
inductive Phase where
  | uninit     -- 0: after reset, before the first INIT
  | absorbing  -- 1: after INIT
  | finalized  -- 2: after FINALIZE
  | faulted    -- 3: after a fault, until reset
  deriving DecidableEq, Repr

/-- `FAULT_CODE`, a 2-bit register (10_state.md R26, 60_exceptions.md R201). -/
inductive FaultCode where
  | none                 -- 0
  | illegalCommand       -- 1
  | useBeforeInit        -- 2
  | misuseAfterFinalize  -- 3
  deriving DecidableEq, Repr

/-- What the host drives on the input wires at one rising edge of `clk` (70_reset_and_hazards.md R233). -/
structure PortInput where
  rst : Bool
  cmdValid : Bool
  cmdWord : CmdWord
  deriving DecidableEq, Repr

/-- A host that drives nothing: no reset, no command offered. -/
def PortInput.idle : PortInput := { rst := false, cmdValid := false, cmdWord := 0 }

/-- The command in flight (10_state.md R27, 70_reset_and_hazards.md R233): its word, and the edges still to pass before
the edge at which it completes (a free number, log 4). -/
structure InFlight where
  word : CmdWord
  edgesLeft : Nat
  deriving DecidableEq, Repr

/-- The state of one engine. -/
structure State where
  /-- `STATE`, lanes `A[0..24]` (10_state.md R20). -/
  lanes : Lanes
  /-- `PENDING` (10_state.md R22). -/
  pending : Lane
  /-- `BYTE_INDEX` (10_state.md R23). -/
  byteIndex : BitVec 4
  /-- `LANE_INDEX` (10_state.md R24). -/
  laneIndex : BitVec 5
  /-- `PHASE` (10_state.md R25). -/
  phase : Phase
  /-- `FAULT_CODE` (10_state.md R26). -/
  faultCode : FaultCode
  /-- `PAD_MODE` (10_state.md R29), fixed at construction; log 9. -/
  padMode : PadMode
  /-- `ROUND` (10_state.md R31); log 11. -/
  round : Fin 24
  /-- `PERM_COUNT`, the spec's model-only counter (10_state.md R35); log 12. -/
  permCount : Nat
  /-- The command in flight; `BUSY` is 1 exactly when there is one (10_state.md R27); log 2. -/
  inFlight : Option InFlight
  /-- The model's own: what the host drives at the coming edges, the next one first; after the last it drives nothing.
  Log 3. -/
  host : List PortInput
  /-- The model's own: the counter from which free values are drawn. Logs 4, 19. -/
  freeCount : Nat
  deriving DecidableEq, Repr

/-- The reasons a step can stop. The spec's faults are no stops: they are states (60_exceptions.md R206). -/
inductive Fault where
  /-- Raised by UPDATE_BYTE, UPDATE_U32LE and FINALIZE in phase ABSORBING when `BYTE_INDEX > 7` or `LANE_INDEX > 16`,
  values that never occur at a command boundary (10_state.md R23, R24). Safe: the spec gives no effect there, and no state
  that a step reaches from `EngineInv` has them. Log 8. -/
  | indexOutOfRange
  deriving DecidableEq, Repr

/-- The reasons the model has no meaning for a step. -/
inductive Refusal where
  /-- Raised by an arm of `exec` whose instruction has no meaning yet; no arm does so. Safe. -/
  | notModelled (mnemonic : String)
  deriving DecidableEq, Repr

/-- What a step or a meaning answers. -/
abbrev Result := Host.Outcome State Fault Refusal

/-- The machine right after reset (70_reset_and_hazards.md R230). `phase`, `faultCode` and `inFlight` (BUSY = 0) are the
spec's values and `padMode` is its default. DESIGN CHOICE (log 1): the registers the spec gives "no value" hold 0. The
model's own fields: no host input is listed (log 3), no free value has been drawn (log 4). -/
def State.reset : State where
  lanes := Vector.replicate 25 0
  pending := 0
  byteIndex := 0
  laneIndex := 0
  phase := .uninit
  faultCode := .none
  padMode := .sha3
  round := 0
  permCount := 0
  inFlight := none
  host := []
  freeCount := 0

end Sys2Proof.Machine
end

