-- ==== Sys2Proof/Machine/Operands.lean ====
section
/-! DEFINITION. Operand forms: bytes of words and lanes, and a byte placed in a lane; all little-endian (20_memory.md
R52-R55). -/

namespace Sys2Proof.Machine

/-- Byte `k` of a lane, `v[8k+7:8k]` (00_scope.md R9). -/
def laneByte (v : Lane) (k : Nat) : Byte := v.extractLsb' (8 * k) 8

/-- `zext_64(v) << (8 * k)`: byte `v` at byte offset `k` of a zero lane (42_absorption.md R150, 43_finalization.md R170). -/
def placeByte (v : Byte) (k : Nat) : Lane := v.setWidth 64 <<< (8 * k)

/-- The four bytes of a 32-bit word in the order UPDATE_U32LE absorbs them, least significant first (20_memory.md R53). -/
def wordBytes (w : U32) : List Byte :=
  [w.extractLsb' 0 8, w.extractLsb' 8 8, w.extractLsb' 16 8, w.extractLsb' 24 8]

end Sys2Proof.Machine
end

