-- ==== Sys2Proof/Machine/Ops.lean ====
section
/-! DEFINITION. The named operations over the engine's registers: one lane, fault entry, reset, and the phase check every
absorbing command makes. -/

namespace Sys2Proof.Machine

/-- `A[i] <- A[i] ^ v`; every other lane is kept (00_scope.md R11). -/
def xorLane (A : Lanes) (i : Nat) (v : Lane) : Lanes :=
  Vector.ofFn fun j => if j.val = i then A[j] ^^^ v else A[j]

/-- TAKING A FAULT: `raise Fault(code)` (60_exceptions.md R206). It writes `FAULT_CODE` and `PHASE` and nothing else. -/
def raiseFault (code : FaultCode) (s : State) : State :=
  { s with faultCode := code, phase := .faulted }

/-- Reset, the only return from a fault (60_exceptions.md R207): every register at its reset value
(70_reset_and_hazards.md R230), the command in flight abandoned (R239), `PAD_MODE` kept (R231). What the host goes on to
drive and the free-value counter are the model's own and stay. Log 13. -/
def applyReset (s : State) : State :=
  { State.reset with padMode := s.padMode, host := s.host, freeCount := s.freeCount }

/-- `BYTE_INDEX` is in 0..7 and `LANE_INDEX` in 0..16, as at every command boundary (10_state.md R23, R24). -/
def indicesInRange (s : State) : Bool :=
  s.byteIndex.toNat ≤ 7 && s.laneIndex.toNat ≤ 16

/-- The phase check of UPDATE_BYTE, UPDATE_U32LE and FINALIZE, in the order of 60_exceptions.md R205: FAULTED ignores the
command (R207), UNINIT and FINALIZED fault (R203, R204), ABSORBING runs `body`. Register values that never occur stop by
name (log 8). -/
def whenAbsorbing (body : State → State) (s : State) : Result :=
  match s.phase with
  | .faulted => .next s
  | .uninit => .next (raiseFault .useBeforeInit s)
  | .finalized => .next (raiseFault .misuseAfterFinalize s)
  | .absorbing => if indicesInRange s then .next (body s) else .fault .indexOutOfRange

/-- The state a result answers, if it answers one. -/
def next? : Result → Option State
  | .next s => some s
  | .fault _ => none
  | .refused _ => none

end Sys2Proof.Machine
end

