-- ==== Sys2Proof/Machine/Rom.lean ====
section
/-! DEFINITION. The three constant ROMs (10_state.md R30, 40_init_constants.md R100, R102, R103). No command writes them
and reset does not change them, so they are constants and not fields of State. -/

namespace Sys2Proof.Machine.Rom

/-- The table of 40_init_constants.md R100, row by row as it stands there: row `k` gives `RC[k]` and `RC[k + 12]` (general
knowledge inside the spec; log 10). -/
def rcRows : Vector (Lane × Lane) 12 := #v[
  (0x0000000000000001, 0x000000008000808B),
  (0x0000000000008082, 0x800000000000008B),
  (0x800000000000808A, 0x8000000000008089),
  (0x8000000080008000, 0x8000000000008003),
  (0x000000000000808B, 0x8000000000008002),
  (0x0000000080000001, 0x8000000000000080),
  (0x8000000080008081, 0x000000000000800A),
  (0x8000000000008009, 0x800000008000000A),
  (0x000000000000008A, 0x8000000080008081),
  (0x0000000000000088, 0x8000000000008080),
  (0x0000000080008009, 0x0000000080000001),
  (0x000000008000000A, 0x8000000080008008)
]

/-- `RC[0..23]`, the round constants: the left column of R100's table, then the right one. -/
def rc : Vector Lane 24 := rcRows.map Prod.fst ++ rcRows.map Prod.snd

/-- `ROT[0..23]`, the rotation offsets, 6 bits each (40_init_constants.md R102). -/
def rot : Vector (BitVec 6) 24 := #v[
  1, 3, 6, 10, 15, 21, 28, 36, 45, 55, 2, 14, 27, 41, 56, 8, 25, 43, 62, 18, 39, 61, 20, 44]

/-- `PI[0..23]`, the pi lane indices, 5 bits each (40_init_constants.md R103). -/
def pi : Vector (BitVec 5) 24 := #v[
  10, 7, 11, 17, 18, 3, 5, 16, 8, 21, 24, 4, 15, 23, 19, 13, 12, 2, 20, 14, 22, 9, 6, 1]

end Sys2Proof.Machine.Rom
end

