-- ==== Sys2Proof/Machine/Permutation.lean ====
section
/-! DEFINITION. The Keccak-f[1600] permutation and its steps (41_permutation.md R120-R130). Internal: no command word
reaches them but through absorption and finalization (R128). -/

namespace Sys2Proof.Machine

/-- A rotate amount of `rotl64`: "an integer with `1 <= n <= 63`" (41_permutation.md R120). Log 17. -/
abbrev RotAmount := { n : Nat // 1 ≤ n ∧ n ≤ 63 }

/-- `rotl64` by the pseudocode of 41_permutation.md R120, so that bit `64 - n + k` of `x` becomes bit `k` for `k < n`. R120's
corner case says `63 - n + k`, against its own pseudocode and examples; that the pseudocode holds is DEDUCED, log 20. -/
def rotl64 (x : Lane) (n : RotAmount) : Lane := (x <<< n.val) ||| (x >>> (64 - n.val))

/-- Every entry of `ROT` is in the domain of `rotl64` (40_init_constants.md R102). -/
theorem rot_inDomain : ∀ i : Fin 24, 1 ≤ (Rom.rot[i]).toNat ∧ (Rom.rot[i]).toNat ≤ 63 := by decide

/-- Every entry of `PI` is a lane index (40_init_constants.md R103). -/
theorem pi_isLane : ∀ i : Fin 24, (Rom.pi[i]).toNat < 25 := by decide

/-- `ROT[i]` as a rotate amount. -/
def rotAt (i : Fin 24) : RotAmount := ⟨(Rom.rot[i]).toNat, rot_inDomain i⟩

/-- `PI[i]` as a lane index. -/
def piAt (i : Fin 24) : Fin 25 := ⟨(Rom.pi[i]).toNat, pi_isLane i⟩

/-- `C[x]`, the parity of column `x` (41_permutation.md R121). -/
def columnParity (A : Lanes) (x : Fin 5) : Lane :=
  A[x.val] ^^^ A[x.val + 5] ^^^ A[x.val + 10] ^^^ A[x.val + 15] ^^^ A[x.val + 20]

/-- `D` for column `x`: `C[(x+4) mod 5] ^ rotl64(C[(x+1) mod 5], 1)` (41_permutation.md R121; which neighbours, and which
one is rotated, is general knowledge inside the spec, log 10). -/
def columnMix (A : Lanes) (x : Fin 5) : Lane :=
  columnParity A (x + 4) ^^^ rotl64 (columnParity A (x + 1)) ⟨1, by decide⟩

/-- Theta (41_permutation.md R121): all parities are those of the input. -/
def theta (A : Lanes) : Lanes :=
  let D := Vector.ofFn (columnMix A)
  Vector.ofFn fun i : Fin 25 => A[i] ^^^ D[i.val % 5]

/-- One step of the Rho/Pi traversal on the lanes and the rolling temporary `t` (41_permutation.md R122). -/
def rhoPiStep (p : Lanes × Lane) (i : Fin 24) : Lanes × Lane :=
  (p.1.set (piAt i) (rotl64 p.2 (rotAt i)), p.1[piAt i])

/-- Rho/Pi in place, in the fixed order `i = 0..23`, the temporary starting as `A[1]` (41_permutation.md R122; the start is
general knowledge inside the spec, log 10). -/
def rhoPi (A : Lanes) : Lanes := ((List.finRange 24).foldl rhoPiStep (A, A[1])).1

/-- Chi (41_permutation.md R124): every row from its own values before Chi (general knowledge inside the spec, log 10). -/
def chi (A : Lanes) : Lanes :=
  Vector.ofFn fun i : Fin 25 =>
    A[i] ^^^ (~~~A[5 * (i.val / 5) + (i.val % 5 + 1) % 5] &&& A[5 * (i.val / 5) + (i.val % 5 + 2) % 5])

/-- Iota (41_permutation.md R125): the round constant into lane 0. -/
def iota (A : Lanes) (ir : Fin 24) : Lanes := A.set 0 (A[0] ^^^ Rom.rc[ir])

/-- One round: Theta, RhoPi, Chi, Iota in this order (41_permutation.md R126). -/
def keccakRound (A : Lanes) (ir : Fin 24) : Lanes := iota (chi (rhoPi (theta A))) ir

/-- `KeccakF`, the 24 rounds as a function of the lanes alone (41_permutation.md R127, R130). Irreducible, so that no
proof runs 24 rounds by accident. -/
@[irreducible] def keccakF (A : Lanes) : Lanes := (List.finRange 24).foldl keccakRound A

/-- One round of `Permute` on the state: `ROUND <- ir`, then the round (41_permutation.md R127). -/
def permuteRound (s : State) (ir : Fin 24) : State :=
  { s with round := ir, lanes := keccakRound s.lanes ir }

/-- `Permute` (41_permutation.md R127): 24 rounds, then `PERM_COUNT <- PERM_COUNT + 1`. `ROUND` keeps its last value
(log 11). Proofs use `permute_eq`. -/
@[irreducible] def permute (s : State) : State :=
  let s' := (List.finRange 24).foldl permuteRound s
  { s' with permCount := s'.permCount + 1 }

end Sys2Proof.Machine
end

