-- ==== Sys2Proof/Machine/Absorption.lean ====
section
/-! DEFINITION. The meanings of UPDATE_BYTE and UPDATE_U32LE (42_absorption.md R150, R151). -/

namespace Sys2Proof.Machine

/-- The buffered lane is full: fold `PENDING` into `A[LANE_INDEX]`, move to the next rate lane, and when all 17 are filled
go back to lane 0 and permute (42_absorption.md R150). -/
def flushLane (s : State) : State :=
  let s := { s with
    lanes := xorLane s.lanes s.laneIndex.toNat s.pending
    pending := 0
    byteIndex := 0
    laneIndex := s.laneIndex + 1 }
  if s.laneIndex = 17 then permute { s with laneIndex := 0 } else s

/-- `AbsorbByte` (42_absorption.md R150). Proofs use `absorbByte_buffer`, `absorbByte_fillLane` and
`absorbByte_fillBlock`. -/
@[irreducible] def absorbByte (v : Byte) (s : State) : State :=
  let s := { s with
    pending := s.pending ||| placeByte v s.byteIndex.toNat
    byteIndex := s.byteIndex + 1 }
  if s.byteIndex = 8 then flushLane s else s

/-- `AbsorbByte` of each byte in turn. -/
def absorbBytes (bytes : List Byte) (s : State) : State :=
  bytes.foldl (fun s v => absorbByte v s) s

/-- UPDATE_BYTE imm8 (42_absorption.md R150). -/
def execUpdateByte (imm8 : Byte) (s : State) : Result :=
  whenAbsorbing (absorbByte imm8) s

/-- UPDATE_U32LE imm32: the word's four bytes, least significant first, as one command (42_absorption.md R151). -/
def execUpdateU32le (imm32 : U32) (s : State) : Result :=
  whenAbsorbing (absorbBytes (wordBytes imm32)) s

end Sys2Proof.Machine
end

