-- ==== Sys2Proof/Machine/Finalization.lean ====
section
/-! DEFINITION. The meaning of FINALIZE (43_finalization.md R170, R171). -/

namespace Sys2Proof.Machine

/-- `SUFFIX` (43_finalization.md R171; the KECCAK byte is general knowledge inside the spec, log 10). -/
def suffixByte : PadMode → Byte
  | .sha3 => 0x06
  | .keccak => 0x01

/-- The padded lanes, just before the permutation (43_finalization.md R170): `PENDING` and the suffix into
`A[LANE_INDEX]`, the last bit of pad10*1 into lane 16, both by XOR. -/
def padLanes (s : State) : Lanes :=
  let pad := placeByte (suffixByte s.padMode) s.byteIndex.toNat
  xorLane (xorLane s.lanes s.laneIndex.toNat (s.pending ^^^ pad)) 16 0x8000000000000000

/-- FINALIZE's writes: pad, permute once, `PHASE <- FINALIZED` (43_finalization.md R170, R174). -/
def finishHash (s : State) : State :=
  { permute { s with lanes := padLanes s } with phase := .finalized }

/-- FINALIZE (43_finalization.md R170). -/
def execFinalize (s : State) : Result :=
  whenAbsorbing finishHash s

end Sys2Proof.Machine
end

