-- ==== Sys2Proof/Machine/Initialization.lean ====
section
/-! DEFINITION. The meaning of INIT (40_init_constants.md R105, R106). -/

namespace Sys2Proof.Machine

/-- INIT's writes: a new hash computation (40_init_constants.md R105). `FAULT_CODE`, `PAD_MODE` and `ROUND` are not
written. -/
def startHash (s : State) : State :=
  { s with
    lanes := Vector.replicate 25 0
    pending := 0
    byteIndex := 0
    laneIndex := 0
    phase := .absorbing
    permCount := 0 }

/-- INIT: legal in UNINIT, ABSORBING and FINALIZED (60_exceptions.md R205), no effect in FAULTED (R207). -/
def execInit (s : State) : Result :=
  match s.phase with
  | .faulted => .next s
  | .uninit => .next (startHash s)
  | .absorbing => .next (startHash s)
  | .finalized => .next (startHash s)

end Sys2Proof.Machine
end

