-- ==== Sys2Proof/Machine/Dispatch.lean ====
section
/-! DEFINITION. One arm per command, each one call of its meaning. -/

namespace Sys2Proof.Machine

def exec (i : Instr) (s : State) : Host.Outcome State Fault Refusal :=
  match i with
  | .init => Sys2Proof.Machine.execInit s
  | .updateByte imm8 => Sys2Proof.Machine.execUpdateByte imm8 s
  | .updateU32le imm32 => Sys2Proof.Machine.execUpdateU32le imm32 s
  | .finalize => Sys2Proof.Machine.execFinalize s

end Sys2Proof.Machine
end

