-- ==== Sys2Proof/Machine/Flags.lean ====
section
/-! DEFINITION. The output views: BUSY, DIGEST_VALID, STATUS, cmd_ready and the digest port (10_state.md R25-R29,
43_finalization.md R172, 70_reset_and_hazards.md R233-R236). All are functions of State: a read has no side effect
(20_memory.md R59). -/

namespace Sys2Proof.Machine

/-- The 2-bit value of `PHASE` (10_state.md R25). -/
def Phase.code : Phase → BitVec 2
  | .uninit => 0
  | .absorbing => 1
  | .finalized => 2
  | .faulted => 3

/-- The 2-bit value of `FAULT_CODE` (60_exceptions.md R201). -/
def FaultCode.code : FaultCode → BitVec 2
  | .none => 0
  | .illegalCommand => 1
  | .useBeforeInit => 2
  | .misuseAfterFinalize => 3

/-- The 1-bit value of `PAD_MODE` (10_state.md R29). -/
def padModeCode : PadMode → BitVec 1
  | .sha3 => 0
  | .keccak => 1

/-- `BUSY`: a command has been accepted and its effects are not complete (10_state.md R27). -/
def State.busy (s : State) : Bool := s.inFlight.isSome

/-- `DIGEST_VALID`: `PHASE = FINALIZED` when `BUSY = 0`, and 0 while `BUSY = 1` (10_state.md R27). -/
def State.digestValid (s : State) : Bool := !s.busy && s.phase == .finalized

/-- Bits [3:0] of `STATUS`, `FAULT_CODE` above `PHASE`; a free value while `BUSY = 1` (70_reset_and_hazards.md R236,
log 6). DESIGN CHOICE: the draw depends on `freeCount` alone, so two engines with equal counters show alike (log 19). -/
def State.statusFields (s : State) : BitVec 4 :=
  if s.busy then Config.busyStatusFields s.freeCount else s.faultCode.code ++ s.phase.code

/-- `STATUS` (10_state.md R28): bit 7 reads 0, bit 6 `PAD_MODE`, bit 5 `DIGEST_VALID`, bit 4 `BUSY`, then the fields. -/
def State.status (s : State) : BitVec 8 :=
  0#1 ++ padModeCode s.padMode ++ BitVec.ofBool s.digestValid ++ BitVec.ofBool s.busy ++ s.statusFields

/-- What the host drives at the coming edge: the first entry of the list, or nothing (log 3). -/
def State.input (s : State) : PortInput := s.host.headD .idle

/-- `cmd_ready = (BUSY = 0) and (rst = 0)` (70_reset_and_hazards.md R233). -/
def State.cmdReady (s : State) : Bool := !s.busy && !s.input.rst

/-- The value of lanes 0..3 as the port shows them, `{A[3], A[2], A[1], A[0]}` (43_finalization.md R172). -/
def digestOf (A : Lanes) : BitVec 256 := A[3] ++ A[2] ++ A[1] ++ A[0]

/-- The digest port `DIGEST`: no value while `DIGEST_VALID = 0` (43_finalization.md R172, 70_reset_and_hazards.md R235,
log 7). -/
def State.digestPort (s : State) : Option (BitVec 256) :=
  if s.digestValid then some (digestOf s.lanes) else none

/-- The digest as a byte string, byte 0 first: byte `k` is `DIGEST[8k+7:8k]` (43_finalization.md R172). -/
def digestByteList (d : BitVec 256) : List Byte :=
  (List.range 32).map fun k => d.extractLsb' (8 * k) 8

end Sys2Proof.Machine
end

