-- ==== Sys2Proof/Machine/Port.lean ====
section
/-! DEFINITION. The command port (70_reset_and_hazards.md R233, R234): what one rising edge of `clk` does, and the step of
60_exceptions.md R205 for a command word. -/

namespace Sys2Proof.Machine

/-- The `LAT_<command>` that bounds a word's busy time (00_scope.md R8); a word that is no command has a bound of its own
(log 5). -/
def latencyBound (w : CmdWord) : ℕ+ :=
  match decode w with
  | .command .init => Config.latInit
  | .command (.updateByte _) => Config.latUpdateByte
  | .command (.updateU32le _) => Config.latUpdateU32le
  | .command .finalize => Config.latFinalize
  | .illegal _ => Config.latIllegal

/-- `Step(w)` of 60_exceptions.md R205: FAULTED first, then the decoder, then the command. -/
def runWord (w : CmdWord) (s : State) : Result :=
  match s.phase, decode w with
  | .faulted, _ => .next s
  | _, .illegal _ => .next (raiseFault .illegalCommand s)
  | _, .command i => exec i s

/-- The free value from which the busy time of `w`, accepted in `s`, is drawn. Logs 4, 19. -/
def busyTime (w : CmdWord) (s : State) : Nat :=
  Config.busyDraw s.freeCount w s.lanes s.pending s.byteIndex s.laneIndex s.phase.code

/-- Acceptance: the word is in flight, `BUSY` rises, and no other register changes (70_reset_and_hazards.md R233, R236).
`edgesLeft + 1` edges later the command completes: at least 1 and at most its bound, otherwise free (log 4). DESIGN CHOICE:
two engines that agree in `freeCount` and in the registers `busyTime` reads draw alike for one word (log 19). -/
def acceptWord (w : CmdWord) (s : State) : State :=
  { s with
    inFlight := some { word := w, edgesLeft := busyTime w s % latencyBound w }
    freeCount := s.freeCount + 1 }

/-- The edge has passed: the host's next input becomes the coming one. -/
def passEdge (s : State) : State := { s with host := s.host.tail }

/-- The state in which a command in flight takes effect: `BUSY` falls with its effects (70_reset_and_hazards.md R236;
log 2). -/
def retire (s : State) : State := { s with inFlight := none }

/-- One more edge of a command in flight has passed. -/
def countDown (c : InFlight) (s : State) : State :=
  { s with inFlight := some { c with edgesLeft := c.edgesLeft - 1 } }

/-- One rising edge of `clk`, given what the host drives at it (70_reset_and_hazards.md R233, R234, R239). Reset comes
first. A busy engine looks at no offer; its command completes or goes on. A ready engine accepts an offered word, or stays
idle and keeps all state (60_exceptions.md R215). -/
def clockEdge (inp : PortInput) (s : State) : Result :=
  if inp.rst then .next (applyReset s)
  else
    match s.inFlight with
    | some c => if c.edgesLeft = 0 then runWord c.word (retire s) else .next (countDown c s)
    | none => if inp.cmdValid then .next (acceptWord inp.cmdWord s) else .next s

/-- The state in which `w` is the command in flight and the coming edge completes it: the host drives nothing at that
edge. Log 16. -/
def placeWord (w : CmdWord) (s : State) : State :=
  { s with inFlight := some { word := w, edgesLeft := 0 }, host := .idle :: s.host }

end Sys2Proof.Machine
end

