-- ==== Sys2Proof/Machine/Step.lean ====
section
/-! DEFINITION. One step is one rising edge of `clk` (70_reset_and_hazards.md R233). Log 2. -/

namespace Sys2Proof.Machine

/-- One step: the edge at which the host drives the first entry of its list. -/
def step (s : State) : Host.Outcome State Fault Refusal :=
  clockEdge s.input (passEdge s)

/-- `s` with the table word `w` placed where the next step runs it: as the command in flight, about to complete. The engine
fetches nothing (20_memory.md R64). Log 16. -/
def State.withFetchWord (s : State) (nbits w : Nat) : State :=
  placeWord (BitVec.ofNat 40 (w % 2 ^ nbits)) s

end Sys2Proof.Machine
end

