-- ==== Sys2Proof/Machine/Asm.lean ====
section
/-! DEFINITION. The assembler (30_encoding.md R78, R79): from a line of text to command words. What R78 leaves open about
spelling is log 15. -/

namespace Sys2Proof.Machine.Asm

/-- A piece of a line. -/
inductive Token where
  | word (chars : List Char)   -- a mnemonic or a number
  | chr (c : Char)             -- 'c'
  | str (chars : List Char)    -- "text"
  | comma
  deriving DecidableEq, Repr

/-- Where in a line the reader stands. -/
inductive Mode where
  | gap                        -- between tokens
  | word (acc : List Char)     -- in a mnemonic or number, last character first
  | str (acc : List Char)      -- in "text", last character first
  | chrOpen                    -- after the opening quote of 'c'
  | chrClose (c : Char)        -- before the closing quote of 'c'
  | comment                    -- after ;
  | bad                        -- a character that fits nowhere
  deriving DecidableEq, Repr

/-- The reader of a line: where it stands and the tokens so far, last first. -/
structure Reader where
  mode : Mode
  tokens : List Token
  deriving DecidableEq, Repr

/-- A letter, a digit or an underscore. -/
def isWordChar (c : Char) : Bool := c.isAlphanum || c.toNat == 95

/-- A character met between tokens (space 32, tab 9, double quote 34, single quote 39, comma 44, semicolon 59). -/
def startToken (tokens : List Token) (c : Char) : Reader :=
  if c.toNat = 32 || c.toNat = 9 then { mode := .gap, tokens }
  else if c.toNat = 44 then { mode := .gap, tokens := .comma :: tokens }
  else if c.toNat = 59 then { mode := .comment, tokens }
  else if c.toNat = 34 then { mode := .str [], tokens }
  else if c.toNat = 39 then { mode := .chrOpen, tokens }
  else if isWordChar c then { mode := .word [c], tokens }
  else { mode := .bad, tokens }

/-- One character read. DESIGN CHOICE: a mnemonic or a number ends at the first character that cannot be in it, so no white
space is needed before a quoted operand or a semicolon (log 15). -/
def readChar (r : Reader) (c : Char) : Reader :=
  match r.mode with
  | .gap => startToken r.tokens c
  | .word acc =>
    if isWordChar c then { r with mode := .word (c :: acc) } else startToken (.word acc.reverse :: r.tokens) c
  | .str acc =>
    if c.toNat = 34 then { mode := .gap, tokens := .str acc.reverse :: r.tokens }
    else { r with mode := .str (c :: acc) }
  | .chrOpen => { r with mode := .chrClose c }
  | .chrClose d =>
    if c.toNat = 39 then { mode := .gap, tokens := .chr d :: r.tokens } else { r with mode := .bad }
  | .comment => r
  | .bad => r

/-- The tokens of a line; none if a quote is left open or a character fits nowhere. -/
def tokens (line : List Char) : Option (List Token) :=
  let r := line.foldl readChar { mode := .gap, tokens := [] }
  match r.mode with
  | .gap => some r.tokens.reverse
  | .comment => some r.tokens.reverse
  | .word acc => some (Token.word acc.reverse :: r.tokens).reverse
  | .str _ => none
  | .chrOpen => none
  | .chrClose _ => none
  | .bad => none

/-- The value of a digit in a base of at most 16, or none. -/
def digit (base : Nat) (c : Char) : Option Nat :=
  let n := c.toNat
  let v := if 48 ≤ n && n ≤ 57 then n - 48
    else if 65 ≤ n && n ≤ 70 then n - 55
    else if 97 ≤ n && n ≤ 102 then n - 87
    else 16
  if v < base then some v else none

/-- A number's digits in a base, at least one. -/
def digits (base : Nat) (cs : List Char) : Option Nat :=
  if cs.isEmpty then none
  else cs.foldl (fun acc c => acc.bind fun n => (digit base c).map fun d => base * n + d) (some 0)

/-- A number: decimal, or hexadecimal after `0x` (30_encoding.md R78). -/
def number (cs : List Char) : Option Nat :=
  match cs with
  | '0' :: 'x' :: hex => digits 16 hex
  | _ => digits 10 cs

/-- An operand `imm32`: a number. -/
def wordOperand : Token → Option Nat
  | .word cs => number cs
  | .chr _ => none
  | .str _ => none
  | .comma => none

/-- An operand `imm8`: a number, or a character literal for its ASCII code (30_encoding.md R78). -/
def byteOperand : Token → Option Nat
  | .word cs => number cs
  | .chr c => if c.toNat < 128 then some c.toNat else none
  | .str _ => none
  | .comma => none

/-- Operands with a comma between each two. -/
def operands (read : Token → Option Nat) : List Token → Option (List Nat)
  | [] => none
  | [t] => (read t).map fun n => [n]
  | t :: .comma :: rest =>
    match read t, operands read rest with
    | some n, some ns => some (n :: ns)
    | _, _ => none
  | _ :: _ :: _ => none

/-- The text operand of ABSORB_STR and HASH_STR. -/
def textOperand : List Token → Option (List Char)
  | [.str t] => some t
  | _ => none

/-- The mnemonics of 30_encoding.md R78 and R79, upper case. -/
inductive Mnemonic where
  | init | updateByte | updateU32le | finalize | absorbBytes | absorbStr | absorbWords | hashStr
  deriving DecidableEq, Repr

/-- The spelling of each mnemonic. -/
def spellings : List (List Char × Mnemonic) := [
  (['I','N','I','T'], .init),
  (['U','P','D','A','T','E','_','B','Y','T','E'], .updateByte),
  (['U','P','D','A','T','E','_','U','3','2','L','E'], .updateU32le),
  (['F','I','N','A','L','I','Z','E'], .finalize),
  (['A','B','S','O','R','B','_','B','Y','T','E','S'], .absorbBytes),
  (['A','B','S','O','R','B','_','S','T','R'], .absorbStr),
  (['A','B','S','O','R','B','_','W','O','R','D','S'], .absorbWords),
  (['H','A','S','H','_','S','T','R'], .hashStr)]

/-- The mnemonic a word spells. -/
def mnemonic (cs : List Char) : Option Mnemonic :=
  (spellings.find? fun p => p.1 == cs).map fun p => p.2

/-- The operands after a mnemonic. -/
def parseOperands : Mnemonic → List Token → Option Source
  | .init, [] => some .init
  | .init, _ => none
  | .updateByte, [t] => (byteOperand t).map .updateByte
  | .updateByte, _ => none
  | .updateU32le, [t] => (wordOperand t).map .updateU32le
  | .updateU32le, _ => none
  | .finalize, [] => some .finalize
  | .finalize, _ => none
  | .absorbBytes, ts => (operands byteOperand ts).map .absorbBytes
  | .absorbStr, ts => (textOperand ts).map .absorbStr
  | .absorbWords, ts => (operands wordOperand ts).map .absorbWords
  | .hashStr, ts => (textOperand ts).map .hashStr

/-- A line as a source line: `MNEMONIC [operand]`, then perhaps `;` and a comment (30_encoding.md R78). -/
def parse (line : List Char) : Option Source :=
  match tokens line with
  | some (.word cs :: ts) => (mnemonic cs).bind fun m => parseOperands m ts
  | _ => none

/-- One UPDATE_BYTE per character, first character first (30_encoding.md R79). -/
def absorbText (text : List Char) : List Instr :=
  text.map fun c => .updateByte (BitVec.ofNat 8 c.toNat)

/-- The commands a source line stands for, in order (30_encoding.md R78, R79). -/
def expand : Source → List Instr
  | .init => [.init]
  | .updateByte n => [.updateByte (BitVec.ofNat 8 n)]
  | .updateU32le n => [.updateU32le (BitVec.ofNat 32 n)]
  | .finalize => [.finalize]
  | .absorbBytes bs => bs.map fun n => .updateByte (BitVec.ofNat 8 n)
  | .absorbStr t => absorbText t
  | .absorbWords ws => ws.map fun n => .updateU32le (BitVec.ofNat 32 n)
  | .hashStr t => .init :: (absorbText t ++ [.finalize])

/-- Assembly of a source line: an operand out of range is an error and is never truncated (30_encoding.md R78). -/
def assemble (l : Source) : Option (List Instr) :=
  if l.wellFormed then some (expand l) else none

/-- A line of text to command words; none is an assembly error. -/
def assembleLine (line : List Char) : Option (List CmdWord) :=
  ((parse line).bind assemble).map fun is => is.map encode

/-- A program, one command or pseudo-instruction a line (30_encoding.md R78). -/
def assembleProgram : List (List Char) → Option (List CmdWord)
  | [] => some []
  | line :: rest =>
    match assembleLine line, assembleProgram rest with
    | some ws, some more => some (ws ++ more)
    | _, _ => none

end Sys2Proof.Machine.Asm
end

