-- ==== Sys2Proof/Machine/Platform.lean ====
section
/-! DEFINITION. A platform of `N_ENGINES` engines (00_scope.md R8, 60_exceptions.md R210, R211): each has its own state,
and any one of them may take the next step. Log 14; that their free values come from the same functions: log 19. -/

namespace Sys2Proof.Machine

/-- `n` engines that share nothing. -/
abbrev Platform (n : Nat) := Vector State n

/-- Engine `k` takes a step; the others keep their state. Nothing if the step stops. -/
def Platform.stepEngine {n : Nat} (p : Platform n) (k : Fin n) : Option (Platform n) :=
  match step p[k] with
  | .next s => some (p.set k s)
  | .fault _ => none
  | .refused _ => none

/-- The engines named in `order` take one step each, in that order. -/
def Platform.run {n : Nat} : List (Fin n) → Platform n → Option (Platform n)
  | [], p => some p
  | k :: order, p =>
    match p.stepEngine k with
    | some p' => Platform.run order p'
    | none => none

end Sys2Proof.Machine
end

