-- ==== Sys2Proof/Machine/Reference.lean ====
section
/-! DEFINITION. Second forms the spec gives for the same things, for claims to compare the machine with: the round-constant
rule (40_init_constants.md R101), the per-lane Rho/Pi (R104, R123) and the sponge on a whole message (20_memory.md R52,
42_absorption.md R154, 43_finalization.md R170-R173). No step uses them. -/

namespace Sys2Proof.Machine.Reference

/-- One turn of the loop of `rc(t)` (40_init_constants.md R101), `R[i]` as bit `i`: prepend a 0, XOR `R[8]` into bits 0, 4,
5 and 6, drop `R[8]`. -/
def lfsrTurn (r : BitVec 8) : BitVec 8 :=
  let long : BitVec 9 := r.setWidth 9 <<< 1
  (if long.getLsbD 8 then long ^^^ 0x71 else long).setWidth 8

/-- `rc(t)` (40_init_constants.md R101). -/
def rcBit (t : Nat) : Bool :=
  if t % 255 = 0 then true else (lfsrTurn^[t % 255] 0x01).getLsbD 0

/-- `RC[ir]` by the rule of 40_init_constants.md R101: `rc(j + 7*ir)` at bit `2^j - 1`. -/
def rcByRule (ir : Nat) : Lane :=
  (List.range 7).foldl
    (fun acc j => acc ||| (BitVec.ofBool (rcBit (j + 7 * ir))).setWidth 64 <<< (2 ^ j - 1)) 0

/-- `r(s)`, the left rotation of lane `s` (40_init_constants.md R104). -/
def rhoOffset : Vector Nat 25 := #v[
  0, 1, 62, 28, 27, 36, 44, 6, 55, 20, 3, 10, 43, 25, 39, 41, 45, 15, 21, 8, 18, 2, 61, 56, 14]

/-- `d(s) = y + 5*((2x + 3y) mod 5)`, where lane `s = x + 5y` goes (40_init_constants.md R104). -/
def piDest (s : Nat) : Nat :=
  let x := s % 5
  let y := s / 5
  y + 5 * ((2 * x + 3 * y) % 5)

/-- The padding after a message of `m` bytes (43_finalization.md R170, R171): suffix byte, zeros, and the last bit of the
block; one byte holds both when one byte is left. -/
def padBytes (mode : PadMode) (m : Nat) : List Byte :=
  let q := Config.rateBytes - m % Config.rateBytes
  if q = 1 then [suffixByte mode ^^^ 0x80]
  else suffixByte mode :: (List.replicate (q - 2) 0 ++ [0x80])

/-- Lane `l` of block `b` of a byte string: byte `n` stands at block `n div 136`, lane `(n div 8) mod 17`, byte `n mod 8`
(20_memory.md R52). -/
def blockLane (p : List Byte) (b l : Nat) : Lane :=
  (List.range 8).foldl (fun acc k => acc ||| placeByte (p.getD (Config.rateBytes * b + 8 * l + k) 0) k) 0

/-- One block: its 17 lanes XORed into the rate, then the permutation. -/
def absorbBlock (p : List Byte) (A : Lanes) (b : Nat) : Lanes :=
  keccakF (Vector.ofFn fun j : Fin 25 => if j.val < Config.rateLanes then A[j] ^^^ blockLane p b j.val else A[j])

/-- The lanes after the whole padded message, from the zero state. -/
def spongeLanes (mode : PadMode) (msg : List Byte) : Lanes :=
  let p := msg ++ padBytes mode msg.length
  (List.range (p.length / Config.rateBytes)).foldl (absorbBlock p) (Vector.replicate 25 0)

end Sys2Proof.Machine.Reference
end

