-- ==== Sys2Proof/Safety.lean ====
section
/-! DEFINITION. The terms claims use: the invariants of 10_state.md R36 and 60_exceptions.md R206, failed and ended runs
(R207, 70_reset_and_hazards.md R238), and sequences of commands. -/

namespace Sys2Proof.Machine

/-- In phase ABSORBING the indices are in range and `PENDING` holds the buffered bytes and nothing above them
(10_state.md R22, R36). -/
abbrev IndexInv (s : State) : Prop :=
  s.phase = .absorbing →
    s.byteIndex.toNat ≤ 7 ∧ s.laneIndex.toNat ≤ 16 ∧ s.pending.toNat < 2 ^ (8 * s.byteIndex.toNat)

/-- `FAULT_CODE` is not NONE exactly in phase FAULTED (10_state.md R26, 60_exceptions.md R206). -/
abbrev FaultInv (s : State) : Prop :=
  s.phase = .faulted ↔ s.faultCode ≠ .none

/-- The invariant of a state at a clock edge. -/
abbrev EngineInv (s : State) : Prop := IndexInv s ∧ FaultInv s

/-- A command in flight has fewer edges left than its latency bound (70_reset_and_hazards.md R233). -/
def FlightInv (s : State) : Prop :=
  ∀ c, s.inFlight = some c → c.edgesLeft < (latencyBound c.word : Nat)

/-- A failed run: "A run that reaches it fails every claim" (60_exceptions.md R207). -/
abbrev Failed (s : State) : Prop := s.phase = .faulted

/-- The end of a hash (70_reset_and_hazards.md R238). -/
abbrev HashEnded (s : State) : Prop := s.busy = false ∧ s.phase = .finalized

/-- Outside ABSORBING a command faults or is ignored: USE_BEFORE_INIT in UNINIT, MISUSE_AFTER_FINALIZE in FINALIZED, no
effect in FAULTED (60_exceptions.md R203, R204, R207). -/
def FaultsByPhase (i : Instr) : Prop :=
  ∀ s : State,
    (s.phase = .uninit → exec i s = .next { s with faultCode := .useBeforeInit, phase := .faulted }) ∧
    (s.phase = .finalized → exec i s = .next { s with faultCode := .misuseAfterFinalize, phase := .faulted }) ∧
    (s.phase = .faulted → exec i s = .next s)

/-- The registers 10_state.md R23 and R24 bound are within their bounds. -/
abbrev InRange (s : State) : Prop := s.byteIndex.toNat ≤ 7 ∧ s.laneIndex.toNat ≤ 16

/-- Commands one after another, each complete before the next (20_memory.md R60). -/
def execAll : List Instr → State → Result
  | [], s => .next s
  | i :: rest, s =>
    match exec i s with
    | .next s' => execAll rest s'
    | .fault r => .fault r
    | .refused r => .refused r

/-- `k` steps of one engine. -/
def runSteps : Nat → State → Result
  | 0, s => .next s
  | k + 1, s =>
    match step s with
    | .next s' => runSteps k s'
    | .fault r => .fault r
    | .refused r => .refused r

/-- UPDATE_BYTE and UPDATE_U32LE: the commands that absorb. -/
def isUpdate : Instr → Bool
  | .init => false
  | .updateByte _ => true
  | .updateU32le _ => true
  | .finalize => false

/-- The message bytes a command absorbs, in order (42_absorption.md R150, R151). -/
def bytesOf : Instr → List Byte
  | .init => []
  | .updateByte imm8 => [imm8]
  | .updateU32le imm32 => wordBytes imm32
  | .finalize => []

/-- The message a sequence of commands absorbs. -/
def messageOf (is : List Instr) : List Byte := is.flatMap bytesOf

end Sys2Proof.Machine
end

