-- ==== Sys2Proof/Certificates/Slice0/Obligations.lean ====
section
/-! DEFINITION. The statements about the model, for the provers. "log n" is notes/assumptions/n.md. -/

open Sys2Proof Sys2Proof.Machine

/-! ## Encoding -/

/-- The decode examples of 95_test_vectors.md section 2.1. -/
def Obligations.SpecWordsDecode : Prop :=
  decode 0x0100000000 = .command .init ∧
  decode 0x0100000001 = .illegal .nonzeroMustBeZero ∧
  decode 0x0200000061 = .command (.updateByte 0x61) ∧
  decode 0x02000000FF = .command (.updateByte 0xFF) ∧
  decode 0x0200000100 = .illegal .nonzeroMustBeZero ∧
  decode 0x0300000000 = .command (.updateU32le 0x00000000) ∧
  decode 0x03FFFFFFFF = .command (.updateU32le 0xFFFFFFFF) ∧
  decode 0x0400000000 = .command .finalize ∧
  decode 0x0480000000 = .illegal .nonzeroMustBeZero ∧
  decode 0x0000000000 = .illegal .reservedOpcode ∧
  decode 0x0500000000 = .illegal .reservedOpcode ∧
  decode 0xFF00000000 = .illegal .reservedOpcode

/-- 30_encoding.md R73: a word is a row's command exactly when `(w & mask) = match`, with the row's pattern; R72: the
operands are `w[7:0]` and `w[31:0]` unchanged, and every value is legal. -/
def Obligations.DecodeMatchesOpcodeTable : Prop :=
  (∀ w : CmdWord,
    (decode w = .command .init ↔ w &&& 0xFFFFFFFFFF = 0x0100000000) ∧
    (∀ v, decode w = .command (.updateByte v) ↔ w &&& 0xFFFFFFFF00 = 0x0200000000 ∧ v = w.extractLsb' 0 8) ∧
    (∀ d, decode w = .command (.updateU32le d) ↔ w &&& 0xFF00000000 = 0x0300000000 ∧ d = w.extractLsb' 0 32) ∧
    (decode w = .command .finalize ↔ w &&& 0xFFFFFFFFFF = 0x0400000000)) ∧
  encode .init = 0x0100000000 ∧
  (∀ v : Byte, encode (.updateByte v) = BitVec.ofNat 40 (0x0200000000 + v.toNat)) ∧
  (∀ d : U32, encode (.updateU32le d) = BitVec.ofNat 40 (0x0300000000 + d.toNat)) ∧
  encode .finalize = 0x0400000000 ∧
  (∀ v : Byte, ∃ w, decode w = .command (.updateByte v)) ∧
  (∀ d : U32, ∃ w, decode w = .command (.updateU32le d))

/-- 30_encoding.md R75, R76 and 60_exceptions.md R202: which words are illegal, and that each raises ILLEGAL_COMMAND and
has no other effect in every phase but FAULTED. -/
def Obligations.IllegalWordsRaiseIllegalCommand : Prop :=
  ∀ w : CmdWord,
    ((∃ why, decode w = .illegal why) ↔
      (w.extractLsb' 32 8 = 0x00 ∨ 0x05 ≤ (w.extractLsb' 32 8).toNat) ∨
      ((w.extractLsb' 32 8 = 0x01 ∨ w.extractLsb' 32 8 = 0x04) ∧ w.extractLsb' 0 32 ≠ 0) ∨
      (w.extractLsb' 32 8 = 0x02 ∧ w.extractLsb' 8 24 ≠ 0)) ∧
    ∀ (why : Illegal) (s : State), decode w = .illegal why → s.phase ≠ .faulted →
      runWord w s = .next { s with faultCode := .illegalCommand, phase := .faulted }

/-- Tier 3: decoding an encoded command gives it back, with every operand, also through the table's numbering. -/
def Obligations.DecodeEncodeRoundTrip : Prop :=
  ∀ i : Instr, i.wellFormed = true →
    decode (encode i) = .command i ∧ decodeTableWord 40 (encode i).toNat = some i

/-- Every command word has one meaning: a word that decodes to a command is that command's encoding. -/
def Obligations.EncodeDecodeRoundTrip : Prop :=
  ∀ (w : CmdWord) (i : Instr), decode w = .command i → encode i = w

/-! ## The ROMs and the permutation -/

/-- The round constants follow the rule of 40_init_constants.md R101, the rotation offsets that of R102, and `PI` lists the
lanes 1..24 once each, lane 1 last (R103). -/
def Obligations.RomsFollowTheirRules : Prop :=
  (∀ ir : Fin 24, Rom.rc[ir] = Reference.rcByRule ir.val) ∧
  (∀ i : Fin 24, (Rom.rot[i]).toNat = ((i.val + 1) * (i.val + 2) / 2) % 64) ∧
  (∀ l : Fin 25, l ≠ 0 → ∃ i : Fin 24, (Rom.pi[i]).toNat = l.val ∧ ∀ k : Fin 24, (Rom.pi[k]).toNat = l.val → k = i) ∧
  (Rom.pi[23]).toNat = 1

/-- The in-place Rho/Pi traversal is the per-lane form of 41_permutation.md R123: lane `s` rotated by `r(s)` stands at
`d(s)`, and lane 0 stays. -/
def Obligations.RhoPiMovesEachLane : Prop :=
  ∀ A : Lanes,
    (rhoPi A)[0] = A[0] ∧
    ∀ s : Fin 25, s ≠ 0 →
      (rhoPi A)[Reference.piDest s.val]? =
        some ((A[s] <<< Reference.rhoOffset[s]) ||| (A[s] >>> (64 - Reference.rhoOffset[s])))

/-- Theta and Chi lane by lane in the coordinates of 00_scope.md R12 (41_permutation.md R121, R124; their exact forms are
general knowledge inside the spec, log 10). -/
def Obligations.ThetaAndChiByCoordinates : Prop :=
  ∀ (A : Lanes) (x y : Fin 5),
    let C := fun c : Fin 5 => A[c.val] ^^^ A[c.val + 5] ^^^ A[c.val + 10] ^^^ A[c.val + 15] ^^^ A[c.val + 20]
    (theta A)[x.val + 5 * y.val] = A[x.val + 5 * y.val] ^^^ C (x + 4) ^^^ ((C (x + 1) <<< 1) ||| (C (x + 1) >>> 63)) ∧
    (chi A)[x.val + 5 * y.val] =
      A[x.val + 5 * y.val] ^^^ (~~~A[(x + 1).val + 5 * y.val] &&& A[(x + 2).val + 5 * y.val])

/-- The corner cases of 41_permutation.md R121 and R124: zero parities leave the state alone; rows of zeros and of ones stay;
rows do not interact. -/
def Obligations.ThetaAndChiFixedPoints : Prop :=
  (∀ A : Lanes,
    (∀ x : Fin 5, A[x.val] ^^^ A[x.val + 5] ^^^ A[x.val + 10] ^^^ A[x.val + 15] ^^^ A[x.val + 20] = 0) →
    theta A = A) ∧
  (∀ (A : Lanes) (y : Fin 5) (v : Lane), (v = 0 ∨ v = 0xFFFFFFFFFFFFFFFF) →
    (∀ x : Fin 5, A[x.val + 5 * y.val] = v) → ∀ x : Fin 5, (chi A)[x.val + 5 * y.val] = v) ∧
  (∀ (A B : Lanes) (y : Fin 5), (∀ x : Fin 5, A[x.val + 5 * y.val] = B[x.val + 5 * y.val]) →
    ∀ x : Fin 5, (chi A)[x.val + 5 * y.val] = (chi B)[x.val + 5 * y.val])

/-- 41_permutation.md R125: Iota XORs `RC[ir]` into lane 0 and leaves lanes 1..24; and its two examples on the zero state. -/
def Obligations.IotaWritesLaneZeroOnly : Prop :=
  (∀ (A : Lanes) (ir : Fin 24),
    (iota A ir)[0] = A[0] ^^^ Rom.rc[ir] ∧ ∀ i : Fin 25, i ≠ 0 → (iota A ir)[i] = A[i]) ∧
  (iota (Vector.replicate 25 0) 0)[0] = 0x0000000000000001 ∧
  (iota (Vector.replicate 25 0) 23)[0] = 0x8000000080008008

/-- 41_permutation.md R126, R127: `Permute` runs Theta, RhoPi, Chi, Iota for `ir = 0, 1, ..., 23`, each once and in this
order; with the spec's examples on the zero state. -/
def Obligations.PermuteRunsTheRoundsInOrder : Prop :=
  (∀ A : Lanes, ∃ B : Nat → Lanes,
    B 0 = A ∧ B 24 = keccakF A ∧ ∀ ir : Fin 24, B (ir.val + 1) = iota (chi (rhoPi (theta (B ir.val)))) ir) ∧
  (∀ s : State, (permute s).lanes = keccakF s.lanes) ∧
  iota (chi (rhoPi (theta (Vector.replicate 25 0)))) 0 = Vector.ofFn (fun i : Fin 25 => if i = 0 then 1 else 0) ∧
  (keccakF (Vector.replicate 25 0))[0] = 0xF1258F7940E1DDE7 ∧
  (keccakF (Vector.replicate 25 0))[1] = 0x84D5CCF933C0478A ∧
  (keccakF (Vector.replicate 25 0))[24] = 0xEAF1FF7B5CECA249

/-- 41_permutation.md R130: `Permute`'s lanes depend on the 25 input lanes alone; and of the rest of the state it writes
`ROUND` and `PERM_COUNT` (one more) only. -/
def Obligations.PermuteDependsOnLanesAlone : Prop :=
  (∀ s s' : State, s.lanes = s'.lanes → (permute s).lanes = (permute s').lanes) ∧
  (∀ s : State, ∃ r,
    permute s = { s with lanes := (permute s).lanes, round := r, permCount := s.permCount + 1 })

/-! ## The commands -/

/-- INIT, 40_init_constants.md R105: encoding, effect in every phase but FAULTED, no effect in FAULTED, the illegal forms, the
status it leaves, and that twice is once. -/
def Obligations.InitStartsANewHash : Prop :=
  decode 0x0100000000 = .command .init ∧
  (∀ (w : CmdWord) (s : State), w.extractLsb' 32 8 = 0x01 → w.extractLsb' 0 32 ≠ 0 → s.phase ≠ .faulted →
    runWord w s = .next { s with faultCode := .illegalCommand, phase := .faulted }) ∧
  (∀ s : State, s.phase = .faulted → exec .init s = .next s) ∧
  (∀ s : State, s.phase ≠ .faulted → ∃ t,
    exec .init s = .next t ∧
    t = { s with lanes := Vector.replicate 25 0, pending := 0, byteIndex := 0, laneIndex := 0,
                 phase := .absorbing, permCount := 0 } ∧
    t.digestValid = false ∧
    (s.busy = false → s.faultCode = .none → t.status = match s.padMode with | .sha3 => 0x01 | .keccak => 0x41) ∧
    exec .init t = .next t)

/-- UPDATE_BYTE, 42_absorption.md R150: encoding, the phases and words it faults in, and its effect: a byte buffered, a lane
filled, a block filled and permuted. (`ROUND`'s value after a permutation is not stated: log 11.) -/
def Obligations.UpdateByteAbsorbsOneByte : Prop :=
  ∀ v : Byte,
    decode (BitVec.ofNat 40 (0x0200000000 + v.toNat)) = .command (.updateByte v) ∧
    (∀ (w : CmdWord) (s : State), w.extractLsb' 32 8 = 0x02 → w.extractLsb' 8 24 ≠ 0 → s.phase ≠ .faulted →
      runWord w s = .next { s with faultCode := .illegalCommand, phase := .faulted }) ∧
    FaultsByPhase (.updateByte v) ∧
    ∀ s : State, s.phase = .absorbing → InRange s →
      let k := s.byteIndex.toNat
      let l := s.laneIndex.toNat
      let p := s.pending ||| (v.setWidth 64 <<< (8 * k))
      let A := s.lanes.setIfInBounds l (s.lanes[l]?.getD 0 ^^^ p)
      (s.pending.toNat < 2 ^ (8 * k) → p = s.pending ^^^ (v.setWidth 64 <<< (8 * k))) ∧
      (k < 7 → exec (.updateByte v) s = .next { s with pending := p, byteIndex := s.byteIndex + 1 }) ∧
      (k = 7 → l < 16 → exec (.updateByte v) s =
        .next { s with lanes := A, pending := 0, byteIndex := 0, laneIndex := s.laneIndex + 1 }) ∧
      (k = 7 → l = 16 → ∃ r, exec (.updateByte v) s =
        .next { s with lanes := keccakF A, pending := 0, byteIndex := 0, laneIndex := 0, round := r,
                       permCount := s.permCount + 1 })

/-- UPDATE_U32LE, 42_absorption.md R151: encoding, the phases it faults in, and that it answers the state that UPDATE_BYTE of
`w[7:0]`, `w[15:8]`, `w[23:16]`, `w[31:24]` in this order leave (20_memory.md R53). What R151 infers of flushes is
`UpdateU32leFlushesAtMostOnce`. -/
def Obligations.UpdateU32leIsFourUpdateBytes : Prop :=
  ∀ w : U32,
    decode (BitVec.ofNat 40 (0x0300000000 + w.toNat)) = .command (.updateU32le w) ∧
    FaultsByPhase (.updateU32le w) ∧
    ∀ s : State, s.phase = .absorbing → InRange s → ∃ t,
      exec (.updateU32le w) s = .next t ∧
      execAll [.updateByte (w.extractLsb' 0 8), .updateByte (w.extractLsb' 8 8),
        .updateByte (w.extractLsb' 16 8), .updateByte (w.extractLsb' 24 8)] s = .next t

/-- 42_absorption.md R151's inference: UPDATE_U32LE flushes at most one lane, exactly when `BYTE_INDEX >= 4`, and permutes at
most once, exactly when that lane is lane 16. -/
def Obligations.UpdateU32leFlushesAtMostOnce : Prop :=
  ∀ (w : U32) (s : State), s.phase = .absorbing → InRange s → ∃ t,
    exec (.updateU32le w) s = .next t ∧
    t.byteIndex.toNat = (s.byteIndex.toNat + 4) % 8 ∧
    t.laneIndex.toNat = (if 4 ≤ s.byteIndex.toNat then (s.laneIndex.toNat + 1) % 17 else s.laneIndex.toNat) ∧
    t.permCount = (if 4 ≤ s.byteIndex.toNat ∧ s.laneIndex.toNat = 16 then s.permCount + 1 else s.permCount)

/-- FINALIZE, 43_finalization.md R170, R171: encoding, the phases and words it faults in, and the padded lanes it permutes,
in both padding modes (KECCAK's byte is general knowledge inside the spec, log 10). -/
def Obligations.FinalizePadsAndPermutes : Prop :=
  decode 0x0400000000 = .command .finalize ∧
  (∀ (w : CmdWord) (s : State), w.extractLsb' 32 8 = 0x04 → w.extractLsb' 0 32 ≠ 0 → s.phase ≠ .faulted →
    runWord w s = .next { s with faultCode := .illegalCommand, phase := .faulted }) ∧
  FaultsByPhase .finalize ∧
  ∀ s : State, s.phase = .absorbing → InRange s →
    let suffix : Byte := match s.padMode with | .sha3 => 0x06 | .keccak => 0x01
    let l := s.laneIndex.toNat
    let A := s.lanes.setIfInBounds l
      (s.lanes[l]?.getD 0 ^^^ s.pending ^^^ (suffix.setWidth 64 <<< (8 * s.byteIndex.toNat)))
    ∃ r, exec .finalize s =
      .next { s with lanes := keccakF (A.set 16 (A[16] ^^^ 0x8000000000000000)), phase := .finalized, round := r,
                     permCount := s.permCount + 1 }

/-- 43_finalization.md R174: FINALIZE in ABSORBING writes STATE and PHASE, and of the bookkeeping nothing (`ROUND` and
`PERM_COUNT` belong to the permutation it runs); afterwards, in FINALIZED and FAULTED, no command and no port depends on
`PENDING`, `BYTE_INDEX` or `LANE_INDEX`. -/
def Obligations.FinalizeKeepsBookkeeping : Prop :=
  (∀ s : State, s.phase = .absorbing → InRange s → ∃ t,
    exec .finalize s = .next t ∧
    t = { s with lanes := t.lanes, phase := .finalized, round := t.round, permCount := s.permCount + 1 }) ∧
  (∀ (s : State) (p : Lane) (b : BitVec 4) (l : BitVec 5), s.phase = .finalized ∨ s.phase = .faulted →
    let s' := { s with pending := p, byteIndex := b, laneIndex := l }
    s'.status = s.status ∧ s'.digestPort = s.digestPort ∧
    ∀ i : Instr, ∃ t t',
      exec i s = .next t ∧ exec i s' = .next t' ∧
      t' = { t with pending := t'.pending, byteIndex := t'.byteIndex, laneIndex := t'.laneIndex } ∧
      (i = .init → s.phase = .finalized → t' = t))

/-- The frame of every command, in every phase: `PAD_MODE` and the port's and the host's state are unchanged; in FAULTED
nothing changes, and a command that faults changes `FAULT_CODE` and `PHASE` only; INIT leaves `FAULT_CODE` and `ROUND`; an
absorbing command in ABSORBING leaves `FAULT_CODE`; UPDATE leaves `PHASE` there, and unless it permutes, `ROUND` and every lane
but `A[LANE_INDEX]`; FINALIZE leaves `PENDING`, `BYTE_INDEX` and `LANE_INDEX` there. (That `ROUND` changes in a permutation
only is the model's reading: log 11.) -/
def Obligations.CommandFrames : Prop :=
  ∀ (i : Instr) (s t : State), exec i s = .next t →
    t.padMode = s.padMode ∧ t.inFlight = s.inFlight ∧ t.host = s.host ∧ t.freeCount = s.freeCount ∧
    (s.phase = .faulted → t = s) ∧
    (i ≠ .init → s.phase = .uninit ∨ s.phase = .finalized →
      t = { s with faultCode := t.faultCode, phase := .faulted }) ∧
    (i = .init → t.faultCode = s.faultCode ∧ t.round = s.round) ∧
    (s.phase = .absorbing → t.faultCode = s.faultCode) ∧
    (s.phase = .absorbing → isUpdate i = true → t.phase = s.phase) ∧
    (s.phase = .absorbing → isUpdate i = true → t.permCount = s.permCount →
      t.round = s.round ∧ ∀ j : Fin 25, j.val ≠ s.laneIndex.toNat → t.lanes[j] = s.lanes[j]) ∧
    (s.phase = .absorbing → i = .finalize →
      t = { s with lanes := t.lanes, phase := .finalized, round := t.round, permCount := t.permCount })

/-! ## The step, faults and phases -/

/-- A STEP RUNS THE DECODED COMMAND: at the edge at which the word in flight completes, and reset is not asserted, the step
is `exec` of the decoded command, on the state with `BUSY` fallen and the host moved on. -/
def Obligations.StepRunsTheDecodedCommand : Prop :=
  ∀ (s : State) (w : CmdWord) (i : Instr),
    s.inFlight = some { word := w, edgesLeft := 0 } → s.input.rst = false → decode w = .command i →
    step s = exec i { s with inFlight := none, host := s.host.tail }

/-- A word placed by `withFetchWord` runs in the very next step. -/
def Obligations.PlacedWordRunsNext : Prop :=
  ∀ (s : State) (w : Nat) (i : Instr), decodeTableWord 40 w = some i →
    step (s.withFetchWord 40 w) = exec i { s with inFlight := none }

/-- 60_exceptions.md R205: the order in which a command word is processed. -/
def Obligations.CommandStepOrder : Prop :=
  ∀ (w : CmdWord) (s : State),
    (s.phase = .faulted → runWord w s = .next s) ∧
    (s.phase ≠ .faulted → (∃ why, decode w = .illegal why) →
      runWord w s = .next { s with faultCode := .illegalCommand, phase := .faulted }) ∧
    (s.phase ≠ .faulted → decode w = .command .init → runWord w s = exec .init s) ∧
    (∀ i, decode w = .command i → i ≠ .init → s.phase = .uninit →
      runWord w s = .next { s with faultCode := .useBeforeInit, phase := .faulted }) ∧
    (∀ i, decode w = .command i → i ≠ .init → s.phase = .finalized →
      runWord w s = .next { s with faultCode := .misuseAfterFinalize, phase := .faulted }) ∧
    (∀ i, decode w = .command i → s.phase = .absorbing → runWord w s = exec i s)

/-- 60_exceptions.md R203, R204: UPDATE_BYTE, UPDATE_U32LE and FINALIZE raise USE_BEFORE_INIT in UNINIT and
MISUSE_AFTER_FINALIZE in FINALIZED. -/
def Obligations.MisuseRaisesThePhaseFault : Prop :=
  ∀ i : Instr, i ≠ .init → ∀ s : State,
    (s.phase = .uninit → exec i s = .next { s with faultCode := .useBeforeInit, phase := .faulted }) ∧
    (s.phase = .finalized → exec i s = .next { s with faultCode := .misuseAfterFinalize, phase := .faulted })

/-- 60_exceptions.md R206: a step that enters FAULTED writes `FAULT_CODE` and `PHASE`, ends the command, and changes nothing
else; the host sees both in STATUS, bits [3:0]. -/
def Obligations.FaultEntryIsPrecise : Prop :=
  ∀ s t : State, step s = .next t → s.phase ≠ .faulted → t.phase = .faulted →
    t.faultCode ≠ .none ∧ (FaultInv s → s.faultCode = .none) ∧
    t = { s with faultCode := t.faultCode, phase := .faulted, inFlight := none, host := s.host.tail } ∧
    t.status.extractLsb' 0 4 = t.faultCode.code ++ 3#2

/-- 60_exceptions.md R200: a fault is raised only by an illegal word, or by UPDATE_BYTE, UPDATE_U32LE or FINALIZE in UNINIT or
in FINALIZED. -/
def Obligations.FaultsHaveThreeCauses : Prop :=
  ∀ s t : State, step s = .next t → s.phase ≠ .faulted → t.phase = .faulted →
    ∃ c, s.inFlight = some c ∧
      ((t.faultCode = .illegalCommand ∧ ∃ why, decode c.word = .illegal why) ∨
       (t.faultCode = .useBeforeInit ∧ s.phase = .uninit ∧ ∃ i, decode c.word = .command i ∧ i ≠ .init) ∨
       (t.faultCode = .misuseAfterFinalize ∧ s.phase = .finalized ∧ ∃ i, decode c.word = .command i ∧ i ≠ .init))

/-- 60_exceptions.md R207: in FAULTED the engine accepts every word, and no command changes a register; the first fault's
code stays, the digest is not valid, and only reset leaves FAULTED. -/
def Obligations.FaultedIgnoresEveryCommand : Prop :=
  ∀ s : State, s.phase = .faulted →
    (∀ w, runWord w s = .next s) ∧
    (∀ i, exec i s = .next s) ∧
    s.digestValid = false ∧
    (s.busy = false → s.input.rst = false → s.input.cmdValid = true → ∃ t c,
      step s = .next t ∧ t.inFlight = some c ∧ c.word = s.input.cmdWord) ∧
    (s.input.rst = false → ∃ t, step s = .next t ∧
      t = { s with inFlight := t.inFlight, host := s.host.tail, freeCount := t.freeCount }) ∧
    (∀ t, step s = .next t → t.phase ≠ .faulted → s.input.rst = true)

/-- Every change of PHASE in one step (10_state.md R25, 40_init_constants.md R106, 43_finalization.md R170,
60_exceptions.md R206, R207, 70_reset_and_hazards.md R230): reset to UNINIT; INIT to ABSORBING; FINALIZE from ABSORBING to
FINALIZED; a fault to FAULTED; and each only by a command that completes, never out of FAULTED. -/
def Obligations.PhaseChangesOnlySo : Prop :=
  ∀ s t : State, step s = .next t → t.phase ≠ s.phase →
    (s.input.rst = true ∧ t.phase = .uninit) ∨
    (s.input.rst = false ∧ s.phase ≠ .faulted ∧ t.inFlight = none ∧ ∃ c, s.inFlight = some c ∧ c.edgesLeft = 0 ∧
      ((decode c.word = .command .init ∧ t.phase = .absorbing) ∨
       (decode c.word = .command .finalize ∧ s.phase = .absorbing ∧ t.phase = .finalized) ∨
       (decode c.word ≠ .command .init ∧ t.phase = .faulted ∧ t.faultCode ≠ .none)))

/-! ## Reset -/

/-- 70_reset_and_hazards.md R230 and R231: reset at any edge puts PHASE, FAULT_CODE, BUSY, DIGEST_VALID and STATUS at their
reset values and abandons the command in flight; PAD_MODE stays; nothing else leaves FAULTED; the state after power-on reads
so too; and nothing reads a register the spec gives no value before INIT writes it: whatever they hold in UNINIT, the ports
show the same, INIT ends in the same state, and every other command faults. (No value of theirs is stated: log 1.) -/
def Obligations.ResetValues : Prop :=
  (∀ s : State, s.input.rst = true → ∃ t,
    step s = .next t ∧ t.phase = .uninit ∧ t.faultCode = .none ∧ t.busy = false ∧ t.digestValid = false ∧
    t.inFlight = none ∧ t.padMode = s.padMode ∧
    t.status = (match s.padMode with | .sha3 => 0x00 | .keccak => 0x40)) ∧
  (∀ s t : State, s.phase = .faulted → step s = .next t → t.phase ≠ .faulted → s.input.rst = true) ∧
  State.reset.phase = .uninit ∧ State.reset.faultCode = .none ∧ State.reset.busy = false ∧
  State.reset.digestValid = false ∧ State.reset.status = 0x00 ∧ State.reset.padMode = .sha3 ∧
  ({ State.reset with padMode := .keccak } : State).status = 0x40 ∧
  (∀ (s : State) (A : Lanes) (p : Lane) (b : BitVec 4) (l : BitVec 5) (n : Nat), s.phase = .uninit →
    let s' := { s with lanes := A, pending := p, byteIndex := b, laneIndex := l, permCount := n }
    s'.status = s.status ∧ s'.digestPort = s.digestPort ∧
    exec .init s' = exec .init s ∧
    ∀ i : Instr, i ≠ .init →
      exec i s' = .next { s' with faultCode := .useBeforeInit, phase := .faulted })

/-- The invariants hold at reset. -/
def Obligations.ResetMeetsTheInvariants : Prop := EngineInv State.reset ∧ FlightInv State.reset

/-! ## Invariants -/

/-- Tier 3: every step keeps the invariant of 10_state.md R22, R23, R24, R26 and R36: in ABSORBING the indices are in range and
PENDING holds the buffered bytes and nothing above them, and FAULT_CODE is not NONE exactly in FAULTED. -/
def Obligations.StepKeepsInv : Prop :=
  ∀ s t : State, EngineInv s → step s = .next t → EngineInv t

/-- From a state that meets the invariant no step stops: whatever the host drives, the engine goes on. -/
def Obligations.StepNeverStops : Prop :=
  ∀ s : State, EngineInv s → ∃ t, step s = .next t

/-- The model's only stop (log 8): an absorbing command in ABSORBING, whose index registers hold values that never occur,
stops by name; and it stops nowhere else. -/
def Obligations.StopsExactlyOutOfRange : Prop :=
  ∀ (i : Instr) (s : State),
    (exec i s = .fault .indexOutOfRange ↔ i ≠ .init ∧ s.phase = .absorbing ∧ ¬ InRange s) ∧
    (¬ (i ≠ .init ∧ s.phase = .absorbing ∧ ¬ InRange s) → ∃ t, exec i s = .next t)

/-- Every step keeps a command in flight within its latency bound. -/
def Obligations.StepKeepsFlightBound : Prop :=
  ∀ s t : State, FlightInv s → step s = .next t → FlightInv t

/-! ## The port -/

/-- An accepted command completes (70_reset_and_hazards.md R237, R233): if the host does not assert reset, then after the
edges that are left, at most its latency bound, the command runs and BUSY falls. That the registers, hidden ones included,
stay untouched until then is the model's choice (log 2), and so is the bound of a word that is no command (log 5). -/
def Obligations.AcceptedCommandCompletes : Prop :=
  ∀ (s : State) (c : InFlight), s.inFlight = some c →
    (∀ n ≤ c.edgesLeft, (s.host.getD n .idle).rst = false) →
    (∀ k ≤ c.edgesLeft, runSteps k s =
      .next { s with inFlight := some { c with edgesLeft := c.edgesLeft - k }, host := s.host.drop k }) ∧
    runSteps (c.edgesLeft + 1) s = runWord c.word { s with inFlight := none, host := s.host.drop (c.edgesLeft + 1) } ∧
    (FlightInv s → c.edgesLeft + 1 ≤ (latencyBound c.word : Nat))

/-- 70_reset_and_hazards.md R236: while BUSY = 1 it reads 1, DIGEST_VALID reads 0 and no command's effect is visible; once
BUSY falls, STATUS shows the state after the command. That no register at all, hidden ones included, changes before BUSY falls
is the model's choice (log 2); the spec speaks of what is visible. -/
def Obligations.NoEffectBeforeBusyFalls : Prop :=
  (∀ s t : State, step s = .next t → t.busy = true →
    t = { s with inFlight := t.inFlight, host := s.host.tail, freeCount := t.freeCount }) ∧
  (∀ s : State, s.busy = true →
    s.status.getLsbD 4 = true ∧ s.status.getLsbD 5 = false ∧ s.digestValid = false ∧ s.digestPort = none) ∧
  (∀ s : State, s.busy = false →
    s.status.extractLsb' 0 2 = s.phase.code ∧ s.status.extractLsb' 2 2 = s.faultCode.code ∧
    s.status.getLsbD 4 = false)

/-- 70_reset_and_hazards.md R233, R234, 60_exceptions.md R215: a ready engine accepts the word present at the edge and BUSY
rises with no other register changed; with no offer it keeps all state; a busy engine does not look at the offer; while `rst`
is 1 the engine is not ready and takes no word. That hidden registers stay at acceptance is the model's choice (log 2); that a
word that is no command makes BUSY rise, and its bound, are too (log 5). -/
def Obligations.OffersCountOnlyWhenReady : Prop :=
  (∀ s : State, s.cmdReady = true → s.input.cmdValid = true → ∃ t c,
    step s = .next t ∧ t.busy = true ∧ t.inFlight = some c ∧ c.word = s.input.cmdWord ∧
    c.edgesLeft < (latencyBound c.word : Nat) ∧
    t = { s with inFlight := t.inFlight, host := s.host.tail, freeCount := t.freeCount }) ∧
  (∀ s : State, s.cmdReady = true → s.input.cmdValid = false → step s = .next { s with host := s.host.tail }) ∧
  (∀ (s : State) (a b : PortInput) (rest : List PortInput), s.busy = true → a.rst = b.rst →
    step { s with host := a :: rest } = step { s with host := b :: rest }) ∧
  (∀ s : State, s.input.rst = true → s.cmdReady = false ∧ ∃ t, step s = .next t ∧ t.busy = false ∧ t.inFlight = none)

/-- 10_state.md R28: the bits of STATUS. -/
def Obligations.StatusBits : Prop :=
  ∀ s : State,
    (s.busy = false → s.status.extractLsb' 0 2 = s.phase.code ∧ s.status.extractLsb' 2 2 = s.faultCode.code) ∧
    s.status.getLsbD 4 = s.busy ∧
    s.status.getLsbD 5 = (!s.busy && decide (s.phase = .finalized)) ∧
    (s.status.getLsbD 6 = true ↔ s.padMode = .keccak) ∧
    s.status.getLsbD 7 = false ∧
    (s = State.reset → s.status = 0x00)

/-- 20_memory.md R54: digest byte `k` is byte `k mod 8` of lane `k div 8`, while the digest is valid. -/
def Obligations.DigestBytesAreLittleEndian : Prop :=
  ∀ s : State, s.digestValid = true → ∃ d,
    s.digestPort = some d ∧ (digestByteList d).length = 32 ∧
    ∀ k : Fin 32, (digestByteList d)[k.val]? =
      some ((s.lanes[k.val / 8]?.getD 0).extractLsb' (8 * (k.val % 8)) 8)

/-- 70_reset_and_hazards.md R238: FINALIZE completing in ABSORBING ends the hash, with the digest on the port; in any other
condition there is none. -/
def Obligations.FinalizeEndsTheHash : Prop :=
  (∀ (s : State) (w : CmdWord),
    s.inFlight = some { word := w, edgesLeft := 0 } → s.input.rst = false → decode w = .command .finalize →
    s.phase = .absorbing → InRange s → ∃ t,
      step s = .next t ∧ t.busy = false ∧ t.phase = .finalized ∧ t.digestValid = true ∧
      t.digestPort = some (t.lanes[3] ++ t.lanes[2] ++ t.lanes[1] ++ t.lanes[0])) ∧
  (∀ s : State, (s.phase ≠ .finalized ∨ s.busy = true) → s.digestPort = none)

/-! ## What is hidden, what never changes -/

/-- 10_state.md R34: the ports show nothing of PENDING, BYTE_INDEX, LANE_INDEX, ROUND, nor of lanes 4..24, and nothing of any
lane before the digest is valid. -/
def Obligations.HiddenStateIsNotShown : Prop :=
  ∀ s s' : State,
    s.phase = s'.phase → s.faultCode = s'.faultCode → s.padMode = s'.padMode → s.inFlight = s'.inFlight →
    s.freeCount = s'.freeCount → s.host = s'.host →
    s.status = s'.status ∧ s.cmdReady = s'.cmdReady ∧
    (s.digestValid = false → s.digestPort = s'.digestPort) ∧
    ((∀ i : Fin 4, s.lanes[i.val] = s'.lanes[i.val]) → s.digestPort = s'.digestPort)

/-- 10_state.md R29: no step changes PAD_MODE, and only FINALIZE reads it: another command does the same whatever it is. -/
def Obligations.PadModeIsFixedAndReadByFinalizeOnly : Prop :=
  padModeCode .sha3 = 0 ∧ padModeCode .keccak = 1 ∧ State.reset.padMode = .sha3 ∧
  (∀ s t : State, step s = .next t → t.padMode = s.padMode) ∧
  (∀ (i : Instr) (s t : State) (m : PadMode), i ≠ .finalize → exec i s = .next t →
    exec i { s with padMode := m } = .next { t with padMode := m })

/-- 10_state.md R35 and R31: INIT sets PERM_COUNT to 0; no port shows PERM_COUNT or ROUND and no command reads them: with
other values there, every other register ends the same. -/
def Obligations.CountersAreNotRead : Prop :=
  (∀ s : State, s.phase ≠ .faulted → ∃ t, exec .init s = .next t ∧ t.permCount = 0) ∧
  (∀ s : State, (permute s).permCount = s.permCount + 1) ∧
  (∀ (i : Instr) (s t : State) (n : Nat) (r : Fin 24), exec i s = .next t →
    let s' := { s with permCount := n, round := r }
    s'.status = s.status ∧ s'.digestPort = s.digestPort ∧ s'.cmdReady = s.cmdReady ∧
    ∃ t', exec i s' = .next t' ∧ t' = { t with permCount := t'.permCount, round := t'.round })

/-- 10_state.md R21: a capacity lane (17..24) changes in a step only by INIT, by reset, or with a permutation; and no port
shows one. -/
def Obligations.CapacityLanesChangeOnlyByPermutation : Prop :=
  (∀ (i : Instr) (s t : State), exec i s = .next t → i ≠ .init → t.permCount = s.permCount →
    ∀ j : Fin 25, 17 ≤ j.val → t.lanes[j] = s.lanes[j]) ∧
  (∀ s t : State, step s = .next t → s.input.rst = false → t.permCount = s.permCount →
    (∀ c, s.inFlight = some c → decode c.word ≠ .command .init) →
    ∀ j : Fin 25, 17 ≤ j.val → t.lanes[j] = s.lanes[j]) ∧
  (∀ (s : State) (A : Lanes), (∀ j : Fin 25, j.val < 17 → A[j] = s.lanes[j]) →
    ({ s with lanes := A } : State).status = s.status ∧ ({ s with lanes := A } : State).digestPort = s.digestPort)

/-! ## Whole hashes -/

/-- From any state that has not faulted, INIT, any updates and FINALIZE show on the digest port the sponge of the
message they absorbed, block by block over the padded message, in both padding modes, with `m div 136 + 1` permutations
(43_finalization.md R173, 42_absorption.md R154, 20_memory.md R52). -/
def Obligations.DigestIsTheSpongeOfTheMessage : Prop :=
  ∀ (s : State) (ups : List Instr), s.phase ≠ .faulted → s.busy = false → (∀ i ∈ ups, isUpdate i = true) → ∃ t,
    execAll (.init :: (ups ++ [.finalize])) s = .next t ∧
    t.phase = .finalized ∧
    t.digestPort = some (digestOf (Reference.spongeLanes s.padMode (messageOf ups))) ∧
    t.permCount = (messageOf ups).length / 136 + 1

/-- After INIT and updates that absorb `m` bytes, BYTE_INDEX, LANE_INDEX and PERM_COUNT are as 10_state.md R36 and
42_absorption.md R154 say, and PENDING holds the bytes of the unfinished lane and nothing above them. -/
def Obligations.BookkeepingCountsTheMessage : Prop :=
  ∀ (s : State) (ups : List Instr), s.phase ≠ .faulted → (∀ i ∈ ups, isUpdate i = true) → ∃ t,
    execAll (.init :: ups) s = .next t ∧
    t.phase = .absorbing ∧
    t.byteIndex.toNat = (messageOf ups).length % 8 ∧
    t.laneIndex.toNat = ((messageOf ups).length / 8) % 17 ∧
    t.permCount = (messageOf ups).length / 136 ∧
    t.pending.toNat < 2 ^ (8 * ((messageOf ups).length % 8)) ∧
    ∀ k < (messageOf ups).length % 8,
      t.pending.extractLsb' (8 * k) 8 = (messageOf ups).getD ((messageOf ups).length / 8 * 8 + k) 0

/-- 42_absorption.md R152's inference: how a byte string is split between UPDATE_BYTEs and UPDATE_U32LEs does not matter. -/
def Obligations.ChunkingDoesNotMatter : Prop :=
  ∀ (s : State) (ups ups' : List Instr), s.phase ≠ .faulted →
    (∀ i ∈ ups, isUpdate i = true) → (∀ i ∈ ups', isUpdate i = true) → messageOf ups = messageOf ups' → ∃ t,
      execAll (.init :: ups) s = .next t ∧ execAll (.init :: ups') s = .next t

/-- Two contexts of one padding mode, whatever they held before, show the same digest after the same commands
(60_exceptions.md R211, "Determinism"; 40_init_constants.md R105). -/
def Obligations.NothingLeaksIntoANewHash : Prop :=
  ∀ (s s' : State) (ups : List Instr), s.phase ≠ .faulted → s'.phase ≠ .faulted → s.busy = false → s'.busy = false →
    s.padMode = s'.padMode → (∀ i ∈ ups, isUpdate i = true) → ∃ t t',
      execAll (.init :: (ups ++ [.finalize])) s = .next t ∧
      execAll (.init :: (ups ++ [.finalize])) s' = .next t' ∧
      t.lanes = t'.lanes ∧ t.digestPort = t'.digestPort ∧ t.digestPort ≠ none

/-- Under any interleaving of the steps of `n` engines, each engine ends where its own steps alone take it (60_exceptions.md
R210, R211, 20_memory.md R61). It rests on the model's form of a platform, a vector of engine states of which one at a time
takes a step (log 14), and would hold of any step of one engine. -/
def Obligations.EnginesDoNotInterfere : Prop :=
  ∀ (n : Nat) (order : List (Fin n)) (p q : Platform n), Platform.run order p = some q →
    ∀ j : Fin n, runSteps (order.count j) p[j] = .next q[j]

/-! ## The assembler -/

/-- 30_encoding.md R78, R79: a command's operand is assembled unchanged when it is in range, and is an error, never truncated,
when it is not; and a list of bytes or of words assembles to one command for each, in order, with that operand, exactly when
every one is in range. (That the list has at least one is the model's reading: log 15.) -/
def Obligations.AssemblerNeverTruncates : Prop :=
  (∀ n : Nat, n < 256 → ∃ v : Byte, v.toNat = n ∧ Asm.assemble (.updateByte n) = some [.updateByte v]) ∧
  (∀ n : Nat, 256 ≤ n → Asm.assemble (.updateByte n) = none) ∧
  (∀ n : Nat, n < 4294967296 → ∃ d : U32, d.toNat = n ∧ Asm.assemble (.updateU32le n) = some [.updateU32le d]) ∧
  (∀ n : Nat, 4294967296 ≤ n → Asm.assemble (.updateU32le n) = none) ∧
  (∀ ns, ns ≠ [] → (∀ n ∈ ns, n < 256) →
    Asm.assemble (.absorbBytes ns) = some (ns.map fun n => .updateByte (BitVec.ofNat 8 n))) ∧
  (∀ ns is, Asm.assemble (.absorbBytes ns) = some is →
    (∀ n ∈ ns, n < 256) ∧ is = (ns.map fun n => .updateByte (BitVec.ofNat 8 n)) ∧ (messageOf is).map BitVec.toNat = ns) ∧
  (∀ ns, ns ≠ [] → (∀ n ∈ ns, n < 4294967296) →
    Asm.assemble (.absorbWords ns) = some (ns.map fun n => .updateU32le (BitVec.ofNat 32 n))) ∧
  (∀ ns is, Asm.assemble (.absorbWords ns) = some is →
    (∀ n ∈ ns, n < 4294967296) ∧ is = (ns.map fun n => .updateU32le (BitVec.ofNat 32 n)) ∧
    (messageOf is).length = 4 * ns.length)

/-- 30_encoding.md R79's inference: `ABSORB_STR "abcd"` and `UPDATE_U32LE 0x64636261` leave the same state. -/
def Obligations.AbsorbStrIsTheLittleEndianWord : Prop :=
  ∃ is, Asm.assemble (.absorbStr ['a', 'b', 'c', 'd']) = some is ∧
    ∀ s : State, s.phase = .absorbing → InRange s → ∃ t,
      execAll is s = .next t ∧ exec (.updateU32le 0x64636261) s = .next t
end

