-- ==== Sys2Proof/Laws/Permutation.lean ====
section
/-! SUPPORT. What `xorLane` and `permute` do, once, so that no later proof unfolds them. -/

namespace Sys2Proof.Machine

/-- `xorLane` lane by lane. -/
@[simp] theorem xorLane_getElem (A : Lanes) (i : Nat) (v : Lane) (j : Nat) (hj : j < 25) :
    (xorLane A i v)[j] = if j = i then A[j] ^^^ v else A[j] := by
  simp [xorLane]

/-- `xorLane` as an update of one place. -/
theorem xorLane_eq_setIfInBounds (A : Lanes) (i : Nat) (v : Lane) :
    xorLane A i v = A.setIfInBounds i (A[i]?.getD 0 ^^^ v) := by
  ext1 j hj
  by_cases h : j = i
  · subst h
    simp [hj]
  · simp [h, Ne.symm h]

/-- The rounds of `Permute` write `lanes` and `round` alone. -/
theorem foldl_permuteRound (rounds : List (Fin 24)) (s : State) :
    rounds.foldl permuteRound s =
      { s with
        lanes := rounds.foldl keccakRound s.lanes
        round := rounds.getLast?.getD s.round } := by
  induction rounds generalizing s with
  | nil => rfl
  | cons ir rest ih =>
    rw [List.foldl_cons, ih]
    cases rest <;> simp [permuteRound, List.getLast?_cons]

/-- Everything `Permute` does. -/
theorem permute_eq (s : State) :
    permute s = { s with lanes := keccakF s.lanes, round := 23, permCount := s.permCount + 1 } := by
  have last : (List.finRange 24).getLast?.getD s.round = 23 := rfl
  simp only [permute, foldl_permuteRound, last, keccakF]

@[simp] theorem permute_lanes (s : State) : (permute s).lanes = keccakF s.lanes := by rw [permute_eq]
@[simp] theorem permute_pending (s : State) : (permute s).pending = s.pending := by rw [permute_eq]
@[simp] theorem permute_byteIndex (s : State) : (permute s).byteIndex = s.byteIndex := by rw [permute_eq]
@[simp] theorem permute_laneIndex (s : State) : (permute s).laneIndex = s.laneIndex := by rw [permute_eq]
@[simp] theorem permute_phase (s : State) : (permute s).phase = s.phase := by rw [permute_eq]
@[simp] theorem permute_faultCode (s : State) : (permute s).faultCode = s.faultCode := by rw [permute_eq]
@[simp] theorem permute_padMode (s : State) : (permute s).padMode = s.padMode := by rw [permute_eq]
@[simp] theorem permute_permCount (s : State) : (permute s).permCount = s.permCount + 1 := by rw [permute_eq]
@[simp] theorem permute_inFlight (s : State) : (permute s).inFlight = s.inFlight := by rw [permute_eq]
@[simp] theorem permute_host (s : State) : (permute s).host = s.host := by rw [permute_eq]
@[simp] theorem permute_freeCount (s : State) : (permute s).freeCount = s.freeCount := by rw [permute_eq]

end Sys2Proof.Machine
end

