-- ==== Sys2Proof/Laws/Absorption.lean ====
section
/-! SUPPORT. What `flushLane`, `absorbByte` and `finishHash` do, by cases, and what they leave alone. -/

namespace Sys2Proof.Machine

/-- A flush that does not fill the block. -/
theorem flushLane_next (s : State) (h : s.laneIndex ≠ 16) :
    flushLane s =
      { s with
        lanes := xorLane s.lanes s.laneIndex.toNat s.pending
        pending := 0
        byteIndex := 0
        laneIndex := s.laneIndex + 1 } := by
  have h' : s.laneIndex + 1 ≠ 17 := by bv_omega
  simp only [flushLane, if_neg h']

/-- A flush that fills the block. -/
theorem flushLane_wrap (s : State) (h : s.laneIndex = 16) :
    flushLane s =
      permute { s with
        lanes := xorLane s.lanes 16 s.pending
        pending := 0
        byteIndex := 0
        laneIndex := 0 } := by
  simp [flushLane, h]

/-- A byte that does not fill the lane. -/
theorem absorbByte_buffer (v : Byte) (s : State) (h : s.byteIndex ≠ 7) :
    absorbByte v s =
      { s with
        pending := s.pending ||| placeByte v s.byteIndex.toNat
        byteIndex := s.byteIndex + 1 } := by
  have h' : s.byteIndex + 1 ≠ 8 := by bv_omega
  simp only [absorbByte, if_neg h']

/-- A byte that fills a lane, not the block's last. -/
theorem absorbByte_fillLane (v : Byte) (s : State) (h : s.byteIndex = 7) (hl : s.laneIndex ≠ 16) :
    absorbByte v s =
      { s with
        lanes := xorLane s.lanes s.laneIndex.toNat (s.pending ||| placeByte v 7)
        pending := 0
        byteIndex := 0
        laneIndex := s.laneIndex + 1 } := by
  have hb : s.byteIndex + 1 = 8 := by rw [h]; rfl
  simp only [absorbByte, if_pos hb]
  rw [flushLane_next _ (by exact hl), h]
  rfl

/-- A byte that fills the block. -/
theorem absorbByte_fillBlock (v : Byte) (s : State) (h : s.byteIndex = 7) (hl : s.laneIndex = 16) :
    absorbByte v s =
      { s with
        lanes := keccakF (xorLane s.lanes 16 (s.pending ||| placeByte v 7))
        pending := 0
        byteIndex := 0
        laneIndex := 0
        round := 23
        permCount := s.permCount + 1 } := by
  have hb : s.byteIndex + 1 = 8 := by rw [h]; rfl
  simp only [absorbByte, if_pos hb]
  rw [flushLane_wrap _ (by exact hl), permute_eq, h]
  rfl

/-- `AbsorbByte` writes lanes, `PENDING`, the indices, `ROUND` and `PERM_COUNT`, and nothing else. -/
theorem absorbByte_frame (v : Byte) (s : State) :
    (absorbByte v s).phase = s.phase ∧ (absorbByte v s).faultCode = s.faultCode ∧
    (absorbByte v s).padMode = s.padMode ∧ (absorbByte v s).inFlight = s.inFlight ∧
    (absorbByte v s).host = s.host ∧ (absorbByte v s).freeCount = s.freeCount := by
  by_cases h : s.byteIndex = 7
  · by_cases hl : s.laneIndex = 16
    · simp only [absorbByte_fillBlock v s h hl, and_self]
    · simp only [absorbByte_fillLane v s h hl, and_self]
  · simp only [absorbByte_buffer v s h, and_self]

@[simp] theorem absorbByte_phase (v : Byte) (s : State) : (absorbByte v s).phase = s.phase :=
  (absorbByte_frame v s).1
@[simp] theorem absorbByte_faultCode (v : Byte) (s : State) : (absorbByte v s).faultCode = s.faultCode :=
  (absorbByte_frame v s).2.1
@[simp] theorem absorbByte_padMode (v : Byte) (s : State) : (absorbByte v s).padMode = s.padMode :=
  (absorbByte_frame v s).2.2.1
@[simp] theorem absorbByte_inFlight (v : Byte) (s : State) : (absorbByte v s).inFlight = s.inFlight :=
  (absorbByte_frame v s).2.2.2.1
@[simp] theorem absorbByte_host (v : Byte) (s : State) : (absorbByte v s).host = s.host :=
  (absorbByte_frame v s).2.2.2.2.1
@[simp] theorem absorbByte_freeCount (v : Byte) (s : State) : (absorbByte v s).freeCount = s.freeCount :=
  (absorbByte_frame v s).2.2.2.2.2

/-- No bytes. -/
theorem absorbBytes_nil (s : State) : absorbBytes [] s = s := rfl

/-- Bytes one after another: the first, then the rest. -/
theorem absorbBytes_cons (v : Byte) (rest : List Byte) (s : State) :
    absorbBytes (v :: rest) s = absorbBytes rest (absorbByte v s) := rfl

/-- Absorbing two byte strings is absorbing one after the other. -/
theorem absorbBytes_append (a b : List Byte) (s : State) :
    absorbBytes (a ++ b) s = absorbBytes b (absorbBytes a s) := by
  simp [absorbBytes, List.foldl_append]

/-- What absorbing a byte string leaves alone. -/
theorem absorbBytes_frame (bytes : List Byte) (s : State) :
    (absorbBytes bytes s).phase = s.phase ∧ (absorbBytes bytes s).faultCode = s.faultCode ∧
    (absorbBytes bytes s).padMode = s.padMode ∧ (absorbBytes bytes s).inFlight = s.inFlight ∧
    (absorbBytes bytes s).host = s.host ∧ (absorbBytes bytes s).freeCount = s.freeCount := by
  induction bytes generalizing s with
  | nil => exact ⟨rfl, rfl, rfl, rfl, rfl, rfl⟩
  | cons v rest ih =>
    rw [absorbBytes_cons]
    simpa using ih (absorbByte v s)

@[simp] theorem absorbBytes_phase (bytes : List Byte) (s : State) : (absorbBytes bytes s).phase = s.phase :=
  (absorbBytes_frame bytes s).1
@[simp] theorem absorbBytes_faultCode (bytes : List Byte) (s : State) :
    (absorbBytes bytes s).faultCode = s.faultCode := (absorbBytes_frame bytes s).2.1
@[simp] theorem absorbBytes_padMode (bytes : List Byte) (s : State) :
    (absorbBytes bytes s).padMode = s.padMode := (absorbBytes_frame bytes s).2.2.1
@[simp] theorem absorbBytes_inFlight (bytes : List Byte) (s : State) :
    (absorbBytes bytes s).inFlight = s.inFlight := (absorbBytes_frame bytes s).2.2.2.1
@[simp] theorem absorbBytes_host (bytes : List Byte) (s : State) :
    (absorbBytes bytes s).host = s.host := (absorbBytes_frame bytes s).2.2.2.2.1
@[simp] theorem absorbBytes_freeCount (bytes : List Byte) (s : State) :
    (absorbBytes bytes s).freeCount = s.freeCount := (absorbBytes_frame bytes s).2.2.2.2.2

/-- Everything `finishHash` does. -/
theorem finishHash_eq (s : State) :
    finishHash s =
      { s with
        lanes := keccakF (padLanes s)
        phase := .finalized
        round := 23
        permCount := s.permCount + 1 } := by
  simp [finishHash, permute_eq]

end Sys2Proof.Machine
end

