-- ==== Sys2Proof/Laws/Decode.lean ====
section
/-! SUPPORT. The two fields of a packed word. -/

namespace Sys2Proof

/-- A packed word bit by bit. -/
theorem packWord_getLsbD (op : Byte) (d : U32) (k : Nat) :
    (packWord op d).getLsbD k = if k < 32 then d.getLsbD k else op.getLsbD (k - 32) :=
  (BitVec.getLsbD_append (x := op) (y := d) (i := k)).trans (by split <;> simp_all)

/-- A packed word as a number. -/
theorem packWord_toNat (op : Byte) (d : U32) : (packWord op d).toNat = op.toNat * 2 ^ 32 + d.toNat := by
  have h : (packWord op d).toNat = op.toNat <<< 32 ||| d.toNat := BitVec.toNat_append op d
  rw [h, ← Nat.shiftLeft_add_eq_or_of_lt d.isLt, Nat.shiftLeft_eq]

/-- A packed word's opcode field is the opcode it was packed from. -/
theorem opField_packWord (op : Byte) (d : U32) : opField (packWord op d) = op := by
  ext k hk
  have high : ¬ 32 + k < 32 := by omega
  simp [opField, packWord_getLsbD, hk, high, BitVec.getLsbD_eq_getElem]

/-- A packed word's operand field is the operand it was packed from. -/
theorem operandField_packWord (op : Byte) (d : U32) : operandField (packWord op d) = d := by
  ext k hk
  simp [operandField, packWord_getLsbD, hk, BitVec.getLsbD_eq_getElem]

/-! The decoder by opcode (30_encoding.md R74). -/

theorem decode_op1 {w : CmdWord} (h : opField w = 0x01) : decode w = ifZero (operandField w) .init := by
  simp [decode, h]

theorem decode_op2 {w : CmdWord} (h : opField w = 0x02) :
    decode w = ifZero ((operandField w).extractLsb' 8 24) (.updateByte ((operandField w).extractLsb' 0 8)) := by
  simp [decode, h]

theorem decode_op3 {w : CmdWord} (h : opField w = 0x03) : decode w = .command (.updateU32le (operandField w)) := by
  simp [decode, h]

theorem decode_op4 {w : CmdWord} (h : opField w = 0x04) : decode w = ifZero (operandField w) .finalize := by
  simp [decode, h]

theorem decode_reserved {w : CmdWord} (h1 : opField w ≠ 0x01) (h2 : opField w ≠ 0x02) (h3 : opField w ≠ 0x03)
    (h4 : opField w ≠ 0x04) : decode w = .illegal .reservedOpcode := by
  simp only [decode, if_neg h1, if_neg h2, if_neg h3, if_neg h4]

/-- A word is its two fields. -/
theorem packWord_fields (w : CmdWord) : packWord (opField w) (operandField w) = w := by
  ext k hk
  rw [← BitVec.getLsbD_eq_getElem, packWord_getLsbD]
  by_cases h : k < 32
  · simp [operandField, h, BitVec.getLsbD_eq_getElem hk]
  · have high : k - 32 < 8 := by omega
    simp [opField, h, high, show 32 + (k - 32) = k by omega, BitVec.getLsbD_eq_getElem hk]

end Sys2Proof
end

