-- ==== Sys2Proof/Laws/State.lean ====
section
/-! SUPPORT. One lemma per field per update of State, true by rfl, so that no later proof unfolds a record update. -/

namespace Sys2Proof.Machine

/-! `raiseFault` writes `faultCode` and `phase`. -/

@[simp] theorem raiseFault_lanes (c : FaultCode) (s : State) : (raiseFault c s).lanes = s.lanes := rfl
@[simp] theorem raiseFault_pending (c : FaultCode) (s : State) : (raiseFault c s).pending = s.pending := rfl
@[simp] theorem raiseFault_byteIndex (c : FaultCode) (s : State) : (raiseFault c s).byteIndex = s.byteIndex := rfl
@[simp] theorem raiseFault_laneIndex (c : FaultCode) (s : State) : (raiseFault c s).laneIndex = s.laneIndex := rfl
@[simp] theorem raiseFault_phase (c : FaultCode) (s : State) : (raiseFault c s).phase = .faulted := rfl
@[simp] theorem raiseFault_faultCode (c : FaultCode) (s : State) : (raiseFault c s).faultCode = c := rfl
@[simp] theorem raiseFault_padMode (c : FaultCode) (s : State) : (raiseFault c s).padMode = s.padMode := rfl
@[simp] theorem raiseFault_round (c : FaultCode) (s : State) : (raiseFault c s).round = s.round := rfl
@[simp] theorem raiseFault_permCount (c : FaultCode) (s : State) : (raiseFault c s).permCount = s.permCount := rfl
@[simp] theorem raiseFault_inFlight (c : FaultCode) (s : State) : (raiseFault c s).inFlight = s.inFlight := rfl
@[simp] theorem raiseFault_host (c : FaultCode) (s : State) : (raiseFault c s).host = s.host := rfl
@[simp] theorem raiseFault_freeCount (c : FaultCode) (s : State) : (raiseFault c s).freeCount = s.freeCount := rfl

/-! `applyReset` keeps `padMode` and the model's own fields. -/

@[simp] theorem applyReset_phase (s : State) : (applyReset s).phase = .uninit := rfl
@[simp] theorem applyReset_faultCode (s : State) : (applyReset s).faultCode = .none := rfl
@[simp] theorem applyReset_padMode (s : State) : (applyReset s).padMode = s.padMode := rfl
@[simp] theorem applyReset_inFlight (s : State) : (applyReset s).inFlight = none := rfl
@[simp] theorem applyReset_host (s : State) : (applyReset s).host = s.host := rfl
@[simp] theorem applyReset_freeCount (s : State) : (applyReset s).freeCount = s.freeCount := rfl

/-! `startHash` writes the HashContext, `phase` and `permCount`. -/

@[simp] theorem startHash_lanes (s : State) : (startHash s).lanes = Vector.replicate 25 0 := rfl
@[simp] theorem startHash_pending (s : State) : (startHash s).pending = 0 := rfl
@[simp] theorem startHash_byteIndex (s : State) : (startHash s).byteIndex = 0 := rfl
@[simp] theorem startHash_laneIndex (s : State) : (startHash s).laneIndex = 0 := rfl
@[simp] theorem startHash_phase (s : State) : (startHash s).phase = .absorbing := rfl
@[simp] theorem startHash_faultCode (s : State) : (startHash s).faultCode = s.faultCode := rfl
@[simp] theorem startHash_padMode (s : State) : (startHash s).padMode = s.padMode := rfl
@[simp] theorem startHash_round (s : State) : (startHash s).round = s.round := rfl
@[simp] theorem startHash_permCount (s : State) : (startHash s).permCount = 0 := rfl
@[simp] theorem startHash_inFlight (s : State) : (startHash s).inFlight = s.inFlight := rfl
@[simp] theorem startHash_host (s : State) : (startHash s).host = s.host := rfl
@[simp] theorem startHash_freeCount (s : State) : (startHash s).freeCount = s.freeCount := rfl

/-! The port's updates: `acceptWord`, `countDown` and `retire` write `inFlight`, `passEdge` writes `host`. -/

@[simp] theorem acceptWord_phase (w : CmdWord) (s : State) : (acceptWord w s).phase = s.phase := rfl
@[simp] theorem acceptWord_faultCode (w : CmdWord) (s : State) : (acceptWord w s).faultCode = s.faultCode := rfl
@[simp] theorem acceptWord_padMode (w : CmdWord) (s : State) : (acceptWord w s).padMode = s.padMode := rfl
@[simp] theorem acceptWord_host (w : CmdWord) (s : State) : (acceptWord w s).host = s.host := rfl
@[simp] theorem acceptWord_freeCount (w : CmdWord) (s : State) : (acceptWord w s).freeCount = s.freeCount + 1 := rfl

@[simp] theorem countDown_phase (c : InFlight) (s : State) : (countDown c s).phase = s.phase := rfl
@[simp] theorem countDown_faultCode (c : InFlight) (s : State) : (countDown c s).faultCode = s.faultCode := rfl
@[simp] theorem countDown_padMode (c : InFlight) (s : State) : (countDown c s).padMode = s.padMode := rfl
@[simp] theorem countDown_host (c : InFlight) (s : State) : (countDown c s).host = s.host := rfl
@[simp] theorem countDown_freeCount (c : InFlight) (s : State) : (countDown c s).freeCount = s.freeCount := rfl

@[simp] theorem retire_lanes (s : State) : (retire s).lanes = s.lanes := rfl
@[simp] theorem retire_pending (s : State) : (retire s).pending = s.pending := rfl
@[simp] theorem retire_byteIndex (s : State) : (retire s).byteIndex = s.byteIndex := rfl
@[simp] theorem retire_laneIndex (s : State) : (retire s).laneIndex = s.laneIndex := rfl
@[simp] theorem retire_phase (s : State) : (retire s).phase = s.phase := rfl
@[simp] theorem retire_faultCode (s : State) : (retire s).faultCode = s.faultCode := rfl
@[simp] theorem retire_padMode (s : State) : (retire s).padMode = s.padMode := rfl
@[simp] theorem retire_round (s : State) : (retire s).round = s.round := rfl
@[simp] theorem retire_permCount (s : State) : (retire s).permCount = s.permCount := rfl
@[simp] theorem retire_inFlight (s : State) : (retire s).inFlight = none := rfl
@[simp] theorem retire_host (s : State) : (retire s).host = s.host := rfl
@[simp] theorem retire_freeCount (s : State) : (retire s).freeCount = s.freeCount := rfl

@[simp] theorem passEdge_lanes (s : State) : (passEdge s).lanes = s.lanes := rfl
@[simp] theorem passEdge_pending (s : State) : (passEdge s).pending = s.pending := rfl
@[simp] theorem passEdge_byteIndex (s : State) : (passEdge s).byteIndex = s.byteIndex := rfl
@[simp] theorem passEdge_laneIndex (s : State) : (passEdge s).laneIndex = s.laneIndex := rfl
@[simp] theorem passEdge_phase (s : State) : (passEdge s).phase = s.phase := rfl
@[simp] theorem passEdge_faultCode (s : State) : (passEdge s).faultCode = s.faultCode := rfl
@[simp] theorem passEdge_padMode (s : State) : (passEdge s).padMode = s.padMode := rfl
@[simp] theorem passEdge_round (s : State) : (passEdge s).round = s.round := rfl
@[simp] theorem passEdge_permCount (s : State) : (passEdge s).permCount = s.permCount := rfl
@[simp] theorem passEdge_inFlight (s : State) : (passEdge s).inFlight = s.inFlight := rfl
@[simp] theorem passEdge_host (s : State) : (passEdge s).host = s.host.tail := rfl
@[simp] theorem passEdge_freeCount (s : State) : (passEdge s).freeCount = s.freeCount := rfl

end Sys2Proof.Machine
end

