-- ==== Sys2Proof/Laws/Exec.lean ====
section
/-! SUPPORT. What the phase check, a command, a command word and a clock edge can answer: inversion lemmas, for proofs to
cite instead of unfolding. -/

namespace Sys2Proof.Machine

/-- The range check is the range. -/
theorem indicesInRange_iff (s : State) : indicesInRange s = true ↔ InRange s := by
  simp [indicesInRange]

/-- In ABSORBING with the indices in range the body runs. -/
theorem whenAbsorbing_next (body : State → State) {s : State} (hp : s.phase = .absorbing) (hr : InRange s) :
    whenAbsorbing body s = .next (body s) := by
  simp only [whenAbsorbing, hp, (indicesInRange_iff s).2 hr, if_true]

/-- Outside ABSORBING the phase check faults or ignores. -/
theorem whenAbsorbing_otherwise (body : State → State) (s : State) :
    (s.phase = .uninit → whenAbsorbing body s = .next (raiseFault .useBeforeInit s)) ∧
    (s.phase = .finalized → whenAbsorbing body s = .next (raiseFault .misuseAfterFinalize s)) ∧
    (s.phase = .faulted → whenAbsorbing body s = .next s) := by
  refine ⟨fun h => ?_, fun h => ?_, fun h => ?_⟩ <;> simp only [whenAbsorbing, h]

/-- Everything the phase check can do when it answers a next state. -/
theorem whenAbsorbing_cases {body : State → State} {s t : State} (h : whenAbsorbing body s = .next t) :
    (s.phase = .faulted ∧ t = s) ∨
    (s.phase = .uninit ∧ t = raiseFault .useBeforeInit s) ∨
    (s.phase = .finalized ∧ t = raiseFault .misuseAfterFinalize s) ∨
    (s.phase = .absorbing ∧ indicesInRange s = true ∧ t = body s) := by
  unfold whenAbsorbing at h
  split at h <;> rename_i hp
  · exact .inl ⟨hp, by simpa using h.symm⟩
  · exact .inr (.inl ⟨hp, by simpa using h.symm⟩)
  · exact .inr (.inr (.inl ⟨hp, by simpa using h.symm⟩))
  · split at h <;> rename_i hr
    · exact .inr (.inr (.inr ⟨hp, hr, by simpa using h.symm⟩))
    · simp at h

/-- Everything INIT can do. -/
theorem execInit_cases {s t : State} (h : execInit s = .next t) :
    (s.phase = .faulted ∧ t = s) ∨ (s.phase ≠ .faulted ∧ t = startHash s) := by
  unfold execInit at h
  split at h <;> rename_i hp <;> simp_all

/-- INIT outside FAULTED starts a hash. -/
theorem execInit_next {s : State} (h : s.phase ≠ .faulted) : execInit s = .next (startHash s) := by
  unfold execInit
  split <;> first | rfl | contradiction

/-- Everything a command can do when it answers a next state. -/
theorem exec_cases {i : Instr} {s t : State} (h : exec i s = .next t) :
    (s.phase = .faulted ∧ t = s) ∨
    (i = .init ∧ s.phase ≠ .faulted ∧ t = startHash s) ∨
    (i ≠ .init ∧ s.phase = .uninit ∧ t = raiseFault .useBeforeInit s) ∨
    (i ≠ .init ∧ s.phase = .finalized ∧ t = raiseFault .misuseAfterFinalize s) ∨
    (s.phase = .absorbing ∧ InRange s ∧
      ((∃ v, i = .updateByte v ∧ t = absorbByte v s) ∨
       (∃ w, i = .updateU32le w ∧ t = absorbBytes (wordBytes w) s) ∨
       (i = .finalize ∧ t = finishHash s))) := by
  cases i with
  | init =>
    rcases execInit_cases h with h | h
    · exact .inl h
    · exact .inr (.inl ⟨rfl, h⟩)
  | updateByte v =>
    rcases whenAbsorbing_cases h with h | h | h | ⟨hp, hr, ht⟩
    · exact .inl h
    · exact .inr (.inr (.inl ⟨by simp, h⟩))
    · exact .inr (.inr (.inr (.inl ⟨by simp, h⟩)))
    · exact .inr (.inr (.inr (.inr ⟨hp, (indicesInRange_iff s).1 hr, .inl ⟨v, rfl, ht⟩⟩)))
  | updateU32le w =>
    rcases whenAbsorbing_cases h with h | h | h | ⟨hp, hr, ht⟩
    · exact .inl h
    · exact .inr (.inr (.inl ⟨by simp, h⟩))
    · exact .inr (.inr (.inr (.inl ⟨by simp, h⟩)))
    · exact .inr (.inr (.inr (.inr ⟨hp, (indicesInRange_iff s).1 hr, .inr (.inl ⟨w, rfl, ht⟩)⟩)))
  | finalize =>
    rcases whenAbsorbing_cases h with h | h | h | ⟨hp, hr, ht⟩
    · exact .inl h
    · exact .inr (.inr (.inl ⟨by simp, h⟩))
    · exact .inr (.inr (.inr (.inl ⟨by simp, h⟩)))
    · exact .inr (.inr (.inr (.inr ⟨hp, (indicesInRange_iff s).1 hr, .inr (.inr ⟨rfl, ht⟩)⟩)))

/-- A command word in FAULTED. -/
theorem runWord_faulted (w : CmdWord) {s : State} (h : s.phase = .faulted) : runWord w s = .next s := by
  unfold runWord
  split <;> first | rfl | contradiction

/-- An illegal word outside FAULTED. -/
theorem runWord_illegal {w : CmdWord} {why : Illegal} {s : State} (hd : decode w = .illegal why)
    (h : s.phase ≠ .faulted) : runWord w s = .next (raiseFault .illegalCommand s) := by
  unfold runWord
  split <;> simp_all

/-- A command's word outside FAULTED. -/
theorem runWord_command {w : CmdWord} {i : Instr} {s : State} (hd : decode w = .command i)
    (h : s.phase ≠ .faulted) : runWord w s = exec i s := by
  unfold runWord
  split <;> simp_all

/-- Everything a command word can do when it answers a next state. -/
theorem runWord_cases {w : CmdWord} {s t : State} (h : runWord w s = .next t) :
    (s.phase = .faulted ∧ t = s) ∨
    (s.phase ≠ .faulted ∧ (∃ why, decode w = .illegal why) ∧ t = raiseFault .illegalCommand s) ∨
    (s.phase ≠ .faulted ∧ ∃ i, decode w = .command i ∧ exec i s = .next t) := by
  unfold runWord at h
  split at h
  next hp => exact .inl ⟨hp, by simpa using h.symm⟩
  next why hd hp => exact .inr (.inl ⟨hp, ⟨why, hd⟩, by simpa using h.symm⟩)
  next i hd hp => exact .inr (.inr ⟨hp, i, hd, h⟩)

/-- Everything a clock edge can do when it answers a next state. -/
theorem clockEdge_cases {inp : PortInput} {s t : State} (h : clockEdge inp s = .next t) :
    (inp.rst = true ∧ t = applyReset s) ∨
    (inp.rst = false ∧ ∃ c, s.inFlight = some c ∧ c.edgesLeft = 0 ∧ runWord c.word (retire s) = .next t) ∨
    (inp.rst = false ∧ ∃ c, s.inFlight = some c ∧ c.edgesLeft ≠ 0 ∧ t = countDown c s) ∨
    (inp.rst = false ∧ s.inFlight = none ∧ inp.cmdValid = true ∧ t = acceptWord inp.cmdWord s) ∨
    (inp.rst = false ∧ s.inFlight = none ∧ inp.cmdValid = false ∧ t = s) := by
  unfold clockEdge at h
  split at h
  next hr => exact .inl ⟨hr, by simpa using h.symm⟩
  next hr =>
    have hr : inp.rst = false := by simpa using hr
    split at h
    next c hc =>
      split at h
      next h0 => exact .inr (.inl ⟨hr, c, hc, h0, h⟩)
      next h0 => exact .inr (.inr (.inl ⟨hr, c, hc, h0, by simpa using h.symm⟩))
    next hn =>
      split at h
      next hv => exact .inr (.inr (.inr (.inl ⟨hr, hn, hv, by simpa using h.symm⟩)))
      next hv => exact .inr (.inr (.inr (.inr ⟨hr, hn, by simpa using hv, by simpa using h.symm⟩)))

/-- The edge at which the command in flight completes. -/
theorem clockEdge_completes {inp : PortInput} {s : State} {c : InFlight} (hr : inp.rst = false)
    (hf : s.inFlight = some c) (h0 : c.edgesLeft = 0) : clockEdge inp s = runWord c.word (retire s) := by
  simp only [clockEdge, hr, hf, h0, if_true, Bool.false_eq_true, if_false]

/-- A step's next state is its clock edge's. -/
theorem step_eq (s : State) : step s = clockEdge s.input (passEdge s) := rfl

/-- One more step at the end. -/
theorem runSteps_succ_last (k : Nat) (s : State) {t : State} (h : runSteps k s = .next t) :
    runSteps (k + 1) s = step t := by
  induction k generalizing s with
  | zero =>
    cases h
    simp only [runSteps]
    cases step t <;> rfl
  | succ k ih =>
    unfold runSteps at h ⊢
    cases hs : step s with
    | next s' =>
      rw [hs] at h
      exact ih s' h
    | fault r => rw [hs] at h; cases h
    | refused r => rw [hs] at h; cases h

/-- `runSteps` is the host's run of the core. -/
theorem runSteps_eq_run (k : Nat) (s : State) : runSteps k s = Host.Core.run Sys2Proof.core k s := by
  induction k generalizing s with
  | zero => rfl
  | succ k ih =>
    have unfolded := Host.Core.run.eq_2 Sys2Proof.core s k
    cases hs : step s with
    | next s' =>
      have hc : Sys2Proof.core.step s = .next s' := hs
      rw [hc] at unfolded
      simp only [runSteps, hs, ih]
      exact unfolded.symm
    | fault r =>
      have hc : Sys2Proof.core.step s = .fault r := hs
      rw [hc] at unfolded
      simp only [runSteps, hs]
      exact unfolded.symm
    | refused r =>
      have hc : Sys2Proof.core.step s = .refused r := hs
      rw [hc] at unfolded
      simp only [runSteps, hs]
      exact unfolded.symm

/-- Commands in two parts, the first of which completes. -/
theorem execAll_append (a b : List Instr) (s : State) {t : State} (h : execAll a s = .next t) :
    execAll (a ++ b) s = execAll b t := by
  induction a generalizing s with
  | nil => cases h; rfl
  | cons i rest ih =>
    simp only [List.cons_append, execAll] at h ⊢
    cases hi : exec i s with
    | next s' =>
      rw [hi] at h
      exact ih s' h
    | fault r => rw [hi] at h; cases h
    | refused r => rw [hi] at h; cases h

end Sys2Proof.Machine
end

