-- ==== Sys2Proof/Laws/Flags.lean ====
section
/-! SUPPORT. The output views bit by bit. -/

namespace Sys2Proof.Machine

/-- The digest value bit by bit: lane 0 lowest (43_finalization.md R172). -/
theorem digestOf_getLsbD (A : Lanes) (k : Nat) :
    (digestOf A).getLsbD k =
      if k < 64 then A[0].getLsbD k
      else if k < 128 then A[1].getLsbD (k - 64)
      else if k < 192 then A[2].getLsbD (k - 128)
      else A[3].getLsbD (k - 192) := by
  have h : (digestOf A).getLsbD k = (A[3] ++ A[2] ++ A[1] ++ A[0]).getLsbD k := rfl
  rw [h, BitVec.getLsbD_append, BitVec.getLsbD_append, BitVec.getLsbD_append]
  by_cases h0 : k < 64
  · simp [h0]
  · by_cases h1 : k < 128
    · simp [h0, h1, show k - 64 < 64 by omega]
    · have e : k - 64 - 64 = k - 128 := by omega
      by_cases h2 : k < 192
      · simp [h0, h1, h2, e, show ¬ k - 64 < 64 by omega, show k - 128 < 64 by omega]
      · simp [h0, h1, h2, e, show ¬ k - 64 < 64 by omega, show ¬ k - 128 < 64 by omega,
          show k - 128 - 64 = k - 192 by omega]

end Sys2Proof.Machine
end

