-- ==== Sys2Proof/Laws/PerInstr.lean ====
section
/-! SUPPORT. Statements about every command, one lemma per constructor. -/

namespace Sys2Proof.Laws.OpcodeField

/-- The opcode column of 30_encoding.md R73. -/
def opcode : Instr → Byte
  | .init => 0x01
  | .updateByte _ => 0x02
  | .updateU32le _ => 0x03
  | .finalize => 0x04

/-- The command is well formed and its word carries its opcode in bits [39:32]. -/
def Statement (i : Instr) : Prop := i.wellFormed = true ∧ opField (encode i) = opcode i

theorem init : Statement .init := ⟨rfl, opField_packWord _ _⟩
theorem updateByte (imm8 : Byte) : Statement (.updateByte imm8) := ⟨rfl, opField_packWord _ _⟩
theorem updateU32le (imm32 : U32) : Statement (.updateU32le imm32) := ⟨rfl, opField_packWord _ _⟩
theorem finalize : Statement .finalize := ⟨rfl, opField_packWord _ _⟩

end Sys2Proof.Laws.OpcodeField
end

