-- ==== Sys2Proof/Tests/Slice0.lean ====
section
/-! SUPPORT. Small tests, with expected values from spec/95_test_vectors.md, and a witness for the hypotheses of each
statement of Certificates/Slice0/Obligations.lean. -/

namespace Sys2Proof.Tests

open Sys2Proof.Machine

/-- A state in ABSORBING with the given bookkeeping. -/
def absorbingAt (pending : Lane) (byteIndex : BitVec 4) (laneIndex : BitVec 5) : State :=
  { State.reset with phase := .absorbing, pending, byteIndex, laneIndex }

/-- A state in the given phase and with the given fault code. -/
def inPhase (phase : Phase) (faultCode : FaultCode) : State := { State.reset with phase, faultCode }

/-- A state in which the coming edge completes `w`. -/
def completing (w : CmdWord) (s : State) : State := { s with inFlight := some { word := w, edgesLeft := 0 } }

/-- Lanes that are 0 but for some. -/
def lanesOf (nonzero : List (Nat × Lane)) : Lanes :=
  Vector.ofFn fun i => ((nonzero.find? fun p => p.1 == i.val).map fun p => p.2).getD 0

/-! ## Well-formedness: what each check refuses (30_encoding.md R78, R79) -/

theorem test_illFormed_updateByte : (Source.updateByte 256).wellFormed = false := by decide
theorem test_wellFormed_updateByte : (Source.updateByte 255).wellFormed = true := by decide
theorem test_illFormed_updateU32le : (Source.updateU32le 0x100000000).wellFormed = false := by decide
theorem test_wellFormed_updateU32le : (Source.updateU32le 0xFFFFFFFF).wellFormed = true := by decide
theorem test_illFormed_absorbBytes : (Source.absorbBytes [1, 256]).wellFormed = false := by decide
theorem test_illFormed_absorbBytes_empty : (Source.absorbBytes []).wellFormed = false := by decide
theorem test_illFormed_absorbWords : (Source.absorbWords [0x100000000]).wellFormed = false := by decide
theorem test_illFormed_absorbWords_empty : (Source.absorbWords []).wellFormed = false := by decide
theorem test_illFormed_absorbStr : (Source.absorbStr [Char.ofNat 233]).wellFormed = false := by decide
theorem test_illFormed_hashStr : (Source.hashStr ['a', Char.ofNat 128]).wellFormed = false := by decide
theorem test_wellFormed_commands :
    [Instr.init, .updateByte 0, .updateU32le 0, .finalize].all Instr.wellFormed = true := by decide

/-! ## Decoding: each row's word written out from its encoding string (spec/opcode_table.json, 30_encoding.md R73) -/

theorem test_decode_init :
    decode 0b0000000100000000000000000000000000000000 = .command .init := by decide
theorem test_decode_updateByte :
    decode 0b0000001000000000000000000000000010100101 = .command (.updateByte 0b10100101) := by decide
theorem test_decode_updateU32le :
    decode 0b0000001111011110101011011011111011101111 = .command (.updateU32le 0b11011110101011011011111011101111) := by
  decide
theorem test_decode_finalize :
    decode 0b0000010000000000000000000000000000000000 = .command .finalize := by decide

/-- 95_test_vectors.md 2.1: one wrong bit makes each of these illegal. -/
theorem test_decode_illegal :
    [0x0100000001, 0x0200000100, 0x0480000000, 0x0000000000, 0x0500000000, 0xFF00000000].all
      (fun w : CmdWord => decode w matches .illegal _) = true := by decide

theorem test_decodeTableWord :
    [0x0100000000, 0x02000000FF, 0x0300000001, 0x0400000000, 0x0500000000, 0x10100000000].map (decodeTableWord 48) =
      [some .init, some (.updateByte 0xFF), some (.updateU32le 1), some .finalize, none, none] := by decide

/-! ## ROMs and the permutation (95_test_vectors.md 2.2, 2.4) -/

theorem test_rotl64 :
    rotl64 0x8000000000000001 ⟨1, by decide⟩ = 0x0000000000000003 ∧
    rotl64 0x8000000000000001 ⟨63, by decide⟩ = 0xC000000000000000 ∧
    rotl64 0x0123456789ABCDEF ⟨8, by decide⟩ = 0x23456789ABCDEF01 ∧
    rotl64 0x0123456789ABCDEF ⟨62, by decide⟩ = 0xC048D159E26AF37B := by decide

theorem test_theta :
    theta (lanesOf [(0, 1)]) = lanesOf [(0, 1), (1, 1), (6, 1), (11, 1), (16, 1), (21, 1), (4, 2), (9, 2), (14, 2),
      (19, 2), (24, 2)] := by decide +kernel

theorem test_rhoPi :
    rhoPi (Vector.replicate 25 1) = #v[
      0x1, 0x0000100000000000, 0x0000080000000000, 0x0000000000200000, 0x0000000000004000,
      0x0000000010000000, 0x0000000000100000, 0x8, 0x0000200000000000, 0x2000000000000000,
      0x2, 0x40, 0x0000000002000000, 0x100, 0x0000000000040000,
      0x0000000008000000, 0x0000001000000000, 0x400, 0x8000, 0x0100000000000000,
      0x4000000000000000, 0x0080000000000000, 0x0000008000000000, 0x0000020000000000, 0x4] := by decide +kernel

theorem test_chi :
    chi (lanesOf [(1, 0xFFFFFFFFFFFFFFFF), (2, 0x0F0F0F0F0F0F0F0F)]) =
      lanesOf [(1, 0xFFFFFFFFFFFFFFFF), (2, 0x0F0F0F0F0F0F0F0F), (4, 0xFFFFFFFFFFFFFFFF)] := by decide +kernel

theorem test_iota : iota (lanesOf []) 23 = lanesOf [(0, 0x8000000080008008)] := by decide +kernel

/-- `KeccakF` of the zero state, all 25 lanes. -/
theorem test_keccakF_zero :
    keccakF (lanesOf []) = #v[
      0xF1258F7940E1DDE7, 0x84D5CCF933C0478A, 0xD598261EA65AA9EE, 0xBD1547306F80494D, 0x8B284E056253D057,
      0xFF97A42D7F8E6FD4, 0x90FEE5A0A44647C4, 0x8C5BDA0CD6192E76, 0xAD30A6F71B19059C, 0x30935AB7D08FFC64,
      0xEB5AA93F2317D635, 0xA9A6E6260D712103, 0x81A57C16DBCF555F, 0x43B831CD0347C826, 0x01F22F1A11A5569F,
      0x05E5635A21D9AE61, 0x64BEFEF28CC970F2, 0x613670957BC46611, 0xB87C5A554FD00ECB, 0x8C3EE88A1CCF32C8,
      0x940C7922AE3A2614, 0x1841F924A2C509E4, 0x16F53526E70465C2, 0x75F644E97F30A13B, 0xEAF1FF7B5CECA249] := by
  decide +kernel

/-! ## The commands (95_test_vectors.md 2.3, 2.5, 2.6) -/

/-- INIT abandons a hash in progress. -/
theorem test_init_abandons :
    (next? (exec .init (absorbingAt 0xFF 1 0))).map (fun t => (t.pending, t.byteIndex, t.status)) =
      some (0, 0, 0x01) := by decide

/-- INIT does nothing in FAULTED. -/
theorem test_init_faulted :
    (next? (exec .init (inPhase .faulted .useBeforeInit))).map State.status = some 0x0B := by decide

/-- The eighth byte fills lane 0. -/
theorem test_updateByte_fills_lane :
    (next? (exec (.updateByte 0x08) (absorbingAt 0x0007060504030201 7 0))).map
        (fun t => (t.lanes[0], t.pending, t.byteIndex, t.laneIndex)) =
      some (0x0807060504030201, 0, 0, 1) := by decide +kernel

/-- The 136th byte of a block permutes once and starts the next block. -/
theorem test_updateByte_fills_block :
    (next? (exec (.updateByte 0xAA) (absorbingAt 0 7 16))).map
        (fun t => (t.pending, t.byteIndex, t.laneIndex, t.permCount)) = some (0, 0, 0, 1) := by decide +kernel

/-- A word over a lane boundary. -/
theorem test_updateU32le_straddles_lane :
    (next? (exec (.updateU32le 0xDDCCBBAA) (absorbingAt 0x0000111111111111 6 0))).map
        (fun t => (t.lanes[0], t.pending, t.byteIndex, t.laneIndex)) =
      some (0xBBAA111111111111, 0xDDCC, 2, 1) := by decide +kernel

/-- A word over a block boundary permutes between its second and third byte. -/
theorem test_updateU32le_straddles_block :
    (next? (exec (.updateU32le 0x44332211) (absorbingAt 0 6 16))).map
        (fun t => (t.pending, t.byteIndex, t.laneIndex, t.permCount)) = some (0x4433, 2, 0, 1) := by decide +kernel

/-- FINALIZE after "abc": SHA3-256's digest lanes. -/
theorem test_finalize_abc :
    (next? (exec .finalize (absorbingAt 0x636261 3 0))).map
        (fun t => (t.lanes[0], t.lanes[1], t.lanes[2], t.lanes[3], t.status)) =
      some (0xB225E24FA75D983A, 0xBD90D36B2D175C04, 0x5B529D3E6E085F85, 0x3215431145E2BF46, 0x22) := by decide +kernel

/-- KECCAK's suffix byte on the empty message. -/
theorem test_padLanes_keccak :
    padLanes { absorbingAt 0 0 0 with padMode := .keccak } = lanesOf [(0, 0x01), (16, 0x8000000000000000)] := by
  decide +kernel

/-- Both padding bits in byte 135 (95_test_vectors.md 2.6). -/
theorem test_padLanes_last_byte : padLanes (absorbingAt 0 7 16) = lanesOf [(16, 0x8600000000000000)] := by decide +kernel

/-! ## Faults, the step and reset (95_test_vectors.md 2.7, 2.8) -/

theorem test_faults :
    [(inPhase .uninit .none, 0x0200000061), (inPhase .uninit .none, 0x0400000000), (inPhase .uninit .none, 0x0500000000),
      (inPhase .finalized .none, 0x0400000000), (inPhase .finalized .none, 0x0300000000),
      (inPhase .finalized .none, 0x0200000100), (inPhase .faulted .misuseAfterFinalize, 0x0100000000),
      (inPhase .absorbing .none, 0xFF12345678)].map (fun p => (next? (runWord p.2 p.1)).map State.status) =
      [some 0x0B, some 0x0B, some 0x07, some 0x0F, some 0x0F, some 0x07, some 0x0F, some 0x07] := by decide

/-- The placed word runs in the next step, first after reset. -/
theorem test_step_runs_placed_word :
    (next? (step (State.reset.withFetchWord 40 0x0100000000))).map (fun t => (t.status, t.inFlight)) =
      some (0x01, none) := by decide

/-- An offered word is accepted, and BUSY rises. -/
theorem test_step_accepts :
    (next? (step { State.reset with host := [{ rst := false, cmdValid := true, cmdWord := 0x0100000000 }] })).map
      (fun t => (t.busy, t.phase, t.inFlight.map InFlight.word)) = some (true, .uninit, some 0x0100000000) := by decide

/-- Reset abandons the command in flight and leaves FAULTED; PAD_MODE stays. -/
theorem test_step_reset :
    (next? (step { completing 0x0100000000 (inPhase .faulted .illegalCommand) with
        padMode := .keccak, host := [{ rst := true, cmdValid := true, cmdWord := 0x0100000000 }] })).map
      (fun t => (t.status, t.busy, t.phase)) = some (0x40, false, .uninit) := by decide

theorem test_reset_outputs :
    State.reset.status = 0x00 ∧ State.reset.cmdReady = true ∧ State.reset.digestPort = none := by decide

/-! ## The assembler (30_encoding.md R78, R79; programs P1 and P2 of 95_test_vectors.md) -/

theorem test_asm_line :
    Asm.assembleLine [' ', 'U', 'P', 'D', 'A', 'T', 'E', '_', 'B', 'Y', 'T', 'E', ' ', Char.ofNat 39, 'a', Char.ofNat 39,
      ' ', ';', ' ', 'x'] = some [0x0200000061] := by decide +kernel

theorem test_asm_hex :
    Asm.assembleProgram [['I', 'N', 'I', 'T'],
      ['U', 'P', 'D', 'A', 'T', 'E', '_', 'U', '3', '2', 'L', 'E', ' ', '0', 'x', '6', '4', '6', '3', '6', '2', '6', '1'],
      ['F', 'I', 'N', 'A', 'L', 'I', 'Z', 'E']] = some [0x0100000000, 0x0364636261, 0x0400000000] := by decide +kernel

theorem test_asm_hashStr :
    Asm.assemble (.hashStr ['a', 'b', 'c']) =
      some [.init, .updateByte 0x61, .updateByte 0x62, .updateByte 0x63, .finalize] := by decide

theorem test_asm_out_of_range :
    Asm.assembleLine ['U', 'P', 'D', 'A', 'T', 'E', '_', 'B', 'Y', 'T', 'E', ' ', '2', '5', '6'] = none := by
  decide +kernel

/-! ## The second forms (40_init_constants.md R101, 95_test_vectors.md 2.6) -/

theorem test_rcByRule : Reference.rcByRule 23 = 0x8000000080008008 := by decide +kernel

/-- The padded block of "abc" (95_test_vectors.md 2.6): lanes 0 and 16. -/
theorem test_sponge_block_abc :
    let p := [0x61, 0x62, 0x63] ++ Reference.padBytes .sha3 3
    p.length = 136 ∧ Reference.blockLane p 0 0 = 0x0000000006636261 ∧
      Reference.blockLane p 0 16 = 0x8000000000000000 := by decide +kernel

/-! ## Witnesses: for each statement with hypotheses, concrete states and operands that meet all of them, clause by clause
and at the edges of each range. `witness_<Name>` is about `Obligations.<Name>`. -/

/-- A host that asserts reset, or offers a word, at the coming edge. -/
def resetting : PortInput := { rst := true, cmdValid := false, cmdWord := 0 }
def offering (w : CmdWord) : PortInput := { rst := false, cmdValid := true, cmdWord := w }

/-- A digest is on the port. -/
def finalizedState : State := { inPhase .finalized .none with lanes := lanesOf [(0, 1), (3, 2), (24, 3)] }

theorem witness_DecodeMatchesOpcodeTable :
    decode 0x0200000000 = .command (.updateByte 0x00) ∧ decode 0x02000000FF = .command (.updateByte 0xFF) ∧
    decode 0x0300000000 = .command (.updateU32le 0x00000000) ∧
    decode 0x03FFFFFFFF = .command (.updateU32le 0xFFFFFFFF) := by decide

/-- The edges of the illegal ranges, in each phase but FAULTED. -/
theorem witness_IllegalWordsRaiseIllegalCommand :
    ([0x0000000000, 0x0500000000, 0xFFFFFFFFFF].all fun w => decide (decode w = .illegal .reservedOpcode)) = true ∧
    ([0x0100000001, 0x0180000000, 0x0400000001, 0x0480000000, 0x0200000100, 0x0280000000].all fun w =>
      decide (decode w = .illegal .nonzeroMustBeZero)) = true ∧
    (inPhase .uninit .none).phase ≠ .faulted ∧ (absorbingAt 0 0 0).phase ≠ .faulted ∧ finalizedState.phase ≠ .faulted := by
  decide

theorem witness_DecodeEncodeRoundTrip :
    Instr.wellFormed (.updateByte 0xFF) = true ∧ Instr.wellFormed (.updateU32le 0xFFFFFFFF) = true := by decide

theorem witness_EncodeDecodeRoundTrip : decode 0x02000000FF = .command (.updateByte 0xFF) := by decide

theorem witness_RomsFollowTheirRules : (1 : Fin 25) ≠ 0 ∧ (24 : Fin 25) ≠ 0 ∧ (Rom.pi[10]).toNat = 24 := by decide

theorem witness_RhoPiMovesEachLane : (1 : Fin 25) ≠ 0 ∧ (24 : Fin 25) ≠ 0 := by decide

/-- A state that is not 0 with zero parities; a row of zeros and a row of ones; two states that share one row. -/
theorem witness_ThetaAndChiFixedPoints :
    (let A := lanesOf [(3, 7), (18, 7)];
      ∀ x : Fin 5, A[x.val] ^^^ A[x.val + 5] ^^^ A[x.val + 10] ^^^ A[x.val + 15] ^^^ A[x.val + 20] = 0) ∧
    (let A := lanesOf [(20, 0xFFFFFFFFFFFFFFFF), (21, 0xFFFFFFFFFFFFFFFF), (22, 0xFFFFFFFFFFFFFFFF),
        (23, 0xFFFFFFFFFFFFFFFF), (24, 0xFFFFFFFFFFFFFFFF), (7, 1)];
      (∀ x : Fin 5, A[x.val + 5 * 4] = 0xFFFFFFFFFFFFFFFF) ∧ ∀ x : Fin 5, A[x.val + 5 * 0] = 0) ∧
    (let A := lanesOf [(2, 9), (8, 1)];
      let B := lanesOf [(2, 9), (8, 3)]
      A ≠ B ∧ ∀ x : Fin 5, A[x.val + 5 * 0] = B[x.val + 5 * 0]) := by decide +kernel

theorem witness_IotaWritesLaneZeroOnly : (24 : Fin 25) ≠ 0 := by decide

theorem witness_PermuteDependsOnLanesAlone :
    (absorbingAt 1 1 0).lanes = (inPhase .faulted .illegalCommand).lanes ∧
    absorbingAt 1 1 0 ≠ inPhase .faulted .illegalCommand := by decide

theorem witness_InitStartsANewHash :
    (0x0180000000 : CmdWord).extractLsb' 32 8 = 0x01 ∧ (0x0180000000 : CmdWord).extractLsb' 0 32 ≠ 0 ∧
    (inPhase .faulted .useBeforeInit).phase = .faulted ∧
    (let s := { finalizedState with padMode := .keccak };
      s.phase ≠ .faulted ∧ s.busy = false ∧ s.faultCode = .none) ∧
    (let s := absorbingAt 0xFF 1 3;
      s.phase ≠ .faulted ∧ s.busy = false ∧ s.faultCode = .none) := by decide

/-- Each clause of UPDATE_BYTE: a byte buffered at `BYTE_INDEX` 0 and 6, a lane filled at `LANE_INDEX` 0 and 15, a block
filled; a state in each phase; and a word with a 1 in `w[31:8]`. -/
theorem witness_UpdateByteAbsorbsOneByte :
    (0x0280000000 : CmdWord).extractLsb' 32 8 = 0x02 ∧ (0x0280000000 : CmdWord).extractLsb' 8 24 ≠ 0 ∧
    ([absorbingAt 0 0 16, absorbingAt 0xFFFFFFFFFFFF 6 0, absorbingAt 0 7 0, absorbingAt 0 7 15,
      absorbingAt 0xFFFFFFFFFFFFFF 7 16].all fun s =>
        decide (s.phase = .absorbing ∧ InRange s ∧ s.pending.toNat < 2 ^ (8 * s.byteIndex.toNat))) = true ∧
    (inPhase .uninit .none).phase = .uninit ∧ finalizedState.phase = .finalized ∧
    (inPhase .faulted .illegalCommand).phase = .faulted := by decide

theorem witness_UpdateU32leIsFourUpdateBytes :
    (absorbingAt 0 0 0).phase = .absorbing ∧ InRange (absorbingAt 0 0 0) ∧
    (absorbingAt 0 6 16).phase = .absorbing ∧ InRange (absorbingAt 0 6 16) := by decide

/-- `BYTE_INDEX` on each side of 4, with `LANE_INDEX` on each side of 16. -/
theorem witness_UpdateU32leFlushesAtMostOnce :
    ([absorbingAt 0 3 16, absorbingAt 0 4 16, absorbingAt 0 4 15, absorbingAt 0 7 0].all fun s =>
      decide (s.phase = .absorbing ∧ InRange s)) = true := by decide

theorem witness_FinalizePadsAndPermutes :
    (0x0400000001 : CmdWord).extractLsb' 32 8 = 0x04 ∧ (0x0400000001 : CmdWord).extractLsb' 0 32 ≠ 0 ∧
    ([absorbingAt 0 0 0, absorbingAt 0 7 16, { absorbingAt 0 0 16 with padMode := .keccak }].all fun s =>
      decide (s.phase = .absorbing ∧ InRange s)) = true := by decide

theorem witness_FinalizeKeepsBookkeeping :
    (absorbingAt 0xFF 1 16).phase = .absorbing ∧ InRange (absorbingAt 0xFF 1 16) ∧
    finalizedState.phase = .finalized ∧ (inPhase .faulted .illegalCommand).phase = .faulted := by decide

/-- INIT; an update that permutes not; FINALIZE in ABSORBING, in UNINIT, in FINALIZED and in FAULTED. -/
theorem witness_CommandFrames :
    exec .init (absorbingAt 0xFF 1 3) = .next (startHash (absorbingAt 0xFF 1 3)) ∧
    exec (.updateByte 1) (absorbingAt 0 7 15) = .next (absorbByte 1 (absorbingAt 0 7 15)) ∧
    (absorbByte 1 (absorbingAt 0 7 15)).permCount = (absorbingAt 0 7 15).permCount ∧
    (16 : Fin 25).val ≠ (absorbingAt 0 7 15).laneIndex.toNat ∧
    exec .finalize (absorbingAt 0 7 16) = .next (finishHash (absorbingAt 0 7 16)) ∧
    exec .finalize (inPhase .uninit .none) = .next (raiseFault .useBeforeInit (inPhase .uninit .none)) ∧
    exec .finalize finalizedState = .next (raiseFault .misuseAfterFinalize finalizedState) ∧
    exec .finalize (inPhase .faulted .illegalCommand) = .next (inPhase .faulted .illegalCommand) :=
  ⟨rfl, rfl, by decide +kernel, by decide, rfl, rfl, rfl, rfl⟩

theorem witness_StepRunsTheDecodedCommand :
    (completing 0x0364636261 (absorbingAt 0 7 16)).inFlight = some { word := 0x0364636261, edgesLeft := 0 } ∧
    (completing 0x0364636261 (absorbingAt 0 7 16)).input.rst = false ∧
    decode 0x0364636261 = .command (.updateU32le 0x64636261) := by decide

theorem witness_PlacedWordRunsNext :
    decodeTableWord 40 0x0100000000 = some .init ∧ decodeTableWord 40 0x02000000FF = some (.updateByte 0xFF) ∧
    decodeTableWord 40 0x03FFFFFFFF = some (.updateU32le 0xFFFFFFFF) ∧
    decodeTableWord 40 0x0400000000 = some .finalize := by decide

theorem witness_CommandStepOrder :
    (inPhase .faulted .illegalCommand).phase = .faulted ∧ (inPhase .uninit .none).phase = .uninit ∧
    finalizedState.phase = .finalized ∧ (absorbingAt 0 0 0).phase = .absorbing ∧
    (∃ why, decode 0x0500000000 = .illegal why) ∧ decode 0x0100000000 = .command .init ∧
    decode 0x0400000000 = .command .finalize ∧ Instr.finalize ≠ .init :=
  ⟨by decide, by decide, by decide, by decide, ⟨.reservedOpcode, by decide⟩, by decide, by decide, by decide⟩

theorem witness_MisuseRaisesThePhaseFault :
    Instr.finalize ≠ .init ∧ (inPhase .uninit .none).phase = .uninit ∧ finalizedState.phase = .finalized := by decide

/-- One step into FAULTED by each of the three causes. -/
theorem witness_FaultEntryIsPrecise :
    [(completing 0x0500000000 (absorbingAt 1 1 0)), (completing 0x0200000061 (inPhase .uninit .none)),
      (completing 0x0400000000 finalizedState)].map
        (fun s => (decide (s.phase ≠ .faulted ∧ FaultInv s), (next? (step s)).map fun t => (t.phase, t.faultCode))) =
      [(true, some (.faulted, .illegalCommand)), (true, some (.faulted, .useBeforeInit)),
       (true, some (.faulted, .misuseAfterFinalize))] := by decide

theorem witness_FaultsHaveThreeCauses :
    let s := completing 0x0400000000 finalizedState
    let t := raiseFault .misuseAfterFinalize finalizedState
    step s = .next t ∧ s.phase ≠ .faulted ∧ t.phase = .faulted := ⟨rfl, by decide, by decide⟩

theorem witness_FaultedIgnoresEveryCommand :
    (let s := { inPhase .faulted .illegalCommand with host := [offering 0x0100000000] };
      s.phase = .faulted ∧ s.busy = false ∧ s.input.rst = false ∧ s.input.cmdValid = true) ∧
    (let s := { inPhase .faulted .illegalCommand with host := [resetting] };
      s.phase = .faulted ∧ (next? (step s)).map State.phase = some .uninit) := by decide

/-- Each of the four ways PHASE changes. -/
theorem witness_PhaseChangesOnlySo :
    [{ finalizedState with host := [resetting] }, completing 0x0100000000 finalizedState,
      completing 0x0400000000 (absorbingAt 0 7 16), completing 0x0000000000 (absorbingAt 0 0 0)].map
        (fun s => (s.phase, (next? (step s)).map State.phase)) =
      [(.finalized, some .uninit), (.finalized, some .absorbing), (.absorbing, some .finalized),
       (.absorbing, some .faulted)] := by decide

theorem witness_ResetValues :
    ({ completing 0x0400000000 (absorbingAt 1 1 0) with host := [resetting] } : State).input.rst = true ∧
    (let s := { inPhase .faulted .useBeforeInit with host := [resetting] };
      s.phase = .faulted ∧ (next? (step s)).map State.phase = some .uninit) ∧
    (inPhase .uninit .none).phase = .uninit ∧ Instr.finalize ≠ .init := by decide

/-- The invariant at its edges: `BYTE_INDEX` 0 and 7, `LANE_INDEX` 16, `PENDING` as large as it gets; FAULTED. -/
theorem witness_StepKeepsInv :
    EngineInv (absorbingAt 0 0 0) ∧ EngineInv (completing 0x02000000FF (absorbingAt 0xFFFFFFFFFFFFFF 7 16)) ∧
    EngineInv (inPhase .faulted .illegalCommand) ∧
    step (completing 0x02000000FF (absorbingAt 0xFFFFFFFFFFFFFF 7 16)) =
      .next (absorbByte 0xFF (absorbingAt 0xFFFFFFFFFFFFFF 7 16)) :=
  ⟨by decide, by decide, by decide, rfl⟩

theorem witness_StepNeverStops : EngineInv (completing 0x0400000000 (absorbingAt 0xFFFFFFFFFFFFFF 7 16)) := by decide

/-- The first value of each register that is out of range, and the last that is in range. -/
theorem witness_StopsExactlyOutOfRange :
    ¬ InRange (absorbingAt 0 8 0) ∧ ¬ InRange (absorbingAt 0 0 17) ∧ InRange (absorbingAt 0 7 16) ∧
    (absorbingAt 0 8 0).phase = .absorbing ∧ Instr.finalize ≠ .init := by decide

theorem witness_StepKeepsFlightBound :
    FlightInv (completing 0x0100000000 State.reset) ∧
    step (completing 0x0100000000 State.reset) = .next (startHash State.reset) :=
  ⟨fun c h => by cases h; exact (latencyBound _).pos, rfl⟩

/-- A command with two edges to go and a host that asserts reset only after it has completed. -/
theorem witness_AcceptedCommandCompletes :
    let s := { State.reset with inFlight := some { word := 0x0100000000, edgesLeft := 2 },
                                host := [offering 0, .idle, .idle, resetting] }
    s.inFlight = some { word := 0x0100000000, edgesLeft := 2 } ∧
    (∀ n ≤ 2, (s.host.getD n .idle).rst = false) ∧ FlightInv (completing 0x0100000000 s) :=
  ⟨rfl, by decide, fun c h => by cases h; exact (latencyBound _).pos⟩

theorem witness_NoEffectBeforeBusyFalls :
    (let s := { State.reset with inFlight := some { word := 0x0100000000, edgesLeft := 1 } };
      s.busy = true ∧ (next? (step s)).map State.busy = some true) ∧
    finalizedState.busy = false := by decide

theorem witness_OffersCountOnlyWhenReady :
    (let s := { State.reset with host := [offering 0x0100000000] };
      s.cmdReady = true ∧ s.input.cmdValid = true) ∧
    (State.reset.cmdReady = true ∧ State.reset.input.cmdValid = false) ∧
    ((completing 0x0100000000 State.reset).busy = true ∧ (offering 0).rst = PortInput.idle.rst ∧
      offering 0 ≠ .idle) ∧
    (let s := { State.reset with host := [{ offering 0x0100000000 with rst := true }] };
      s.busy = false ∧ s.input.rst = true) := by decide

theorem witness_StatusBits :
    finalizedState.busy = false ∧ (completing 0 finalizedState).busy = true ∧
    finalizedState.status = 0x22 ∧ State.reset.status = 0x00 := by decide

theorem witness_DigestBytesAreLittleEndian :
    finalizedState.digestValid = true ∧
    finalizedState.digestPort.map (fun d => (digestByteList d).map BitVec.toNat) =
      some (1 :: (List.replicate 23 0 ++ 2 :: List.replicate 7 0)) := by decide +kernel

theorem witness_FinalizeEndsTheHash :
    let s := completing 0x0400000000 (absorbingAt 0 7 16)
    s.inFlight = some { word := 0x0400000000, edgesLeft := 0 } ∧ s.input.rst = false ∧
    decode 0x0400000000 = .command .finalize ∧ s.phase = .absorbing ∧ InRange s ∧
    (completing 0x0100000000 finalizedState).busy = true ∧ (inPhase .uninit .none).phase ≠ .finalized := by decide

/-- Two states with the same ports that differ in every hidden register. -/
theorem witness_HiddenStateIsNotShown :
    let s := finalizedState
    let s' := { finalizedState with
      pending := 5, byteIndex := 7, laneIndex := 16, round := 23, lanes := lanesOf [(0, 1), (3, 2), (4, 9)] }
    s ≠ s' ∧ s.phase = s'.phase ∧ s.faultCode = s'.faultCode ∧ s.padMode = s'.padMode ∧ s.inFlight = s'.inFlight ∧
    s.freeCount = s'.freeCount ∧ s.host = s'.host ∧ (∀ i : Fin 4, s.lanes[i.val] = s'.lanes[i.val]) ∧
    (absorbingAt 0 0 0).digestValid = false := by decide +kernel

theorem witness_PadModeIsFixedAndReadByFinalizeOnly :
    (Instr.updateByte 0xFF) ≠ .finalize ∧
    exec (.updateByte 0xFF) (absorbingAt 0 7 16) = .next (absorbByte 0xFF (absorbingAt 0 7 16)) ∧
    step (completing 0x0100000000 State.reset) = .next (startHash State.reset) := ⟨by decide, rfl, rfl⟩

theorem witness_CountersAreNotRead :
    finalizedState.phase ≠ .faulted ∧
    exec .finalize (absorbingAt 0 7 16) = .next (finishHash (absorbingAt 0 7 16)) := ⟨by decide, rfl⟩

/-- A lane fills next to the capacity lanes, as a command and as a step; two states that differ in capacity lanes only. -/
theorem witness_CapacityLanesChangeOnlyByPermutation :
    (exec (.updateByte 1) (absorbingAt 0 7 15) = .next (absorbByte 1 (absorbingAt 0 7 15)) ∧
      step (completing 0x0200000001 (absorbingAt 0 7 15)) = .next (absorbByte 1 (absorbingAt 0 7 15)) ∧
      (absorbByte 1 (absorbingAt 0 7 15)).permCount = (absorbingAt 0 7 15).permCount ∧
      decode 0x0200000001 ≠ .command .init ∧ (completing 0x0200000001 (absorbingAt 0 7 15)).input.rst = false) ∧
    17 ≤ (17 : Fin 25).val ∧
    (let A := lanesOf [(0, 1), (3, 2), (17, 4)];
      A ≠ finalizedState.lanes ∧ ∀ j : Fin 25, j.val < 17 → A[j] = finalizedState.lanes[j]) :=
  ⟨⟨rfl, rfl, by decide +kernel, by decide, by decide⟩, by decide, by decide +kernel⟩

/-- No message at all, and a message of both commands, from a finished hash. -/
theorem witness_DigestIsTheSpongeOfTheMessage :
    finalizedState.phase ≠ .faulted ∧ finalizedState.busy = false ∧ (∀ i ∈ ([] : List Instr), isUpdate i = true) ∧
    ∀ i ∈ [Instr.updateByte 0, .updateU32le 0xDDCCBBAA], isUpdate i = true := by decide

theorem witness_BookkeepingCountsTheMessage :
    (absorbingAt 0xFF 1 3).phase ≠ .faulted ∧
    (∀ i ∈ [Instr.updateByte 0, .updateU32le 0xDDCCBBAA], isUpdate i = true) ∧
    4 < (messageOf [Instr.updateByte 0, .updateU32le 0xDDCCBBAA]).length % 8 := by decide

theorem witness_ChunkingDoesNotMatter :
    let ups := [Instr.updateU32le 0x64636261]
    let ups' := [Instr.updateByte 0x61, .updateByte 0x62, .updateByte 0x63, .updateByte 0x64]
    State.reset.phase ≠ .faulted ∧ (∀ i ∈ ups, isUpdate i = true) ∧ (∀ i ∈ ups', isUpdate i = true) ∧
    ups ≠ ups' ∧ messageOf ups = messageOf ups' := by decide

theorem witness_NothingLeaksIntoANewHash :
    let s := absorbingAt 0xFF 1 3
    let s' := finalizedState
    s.phase ≠ .faulted ∧ s'.phase ≠ .faulted ∧ s.busy = false ∧ s'.busy = false ∧ s.padMode = s'.padMode ∧ s ≠ s' ∧
    ∀ i ∈ [Instr.updateByte 0], isUpdate i = true := by decide

/-- Two engines, three steps in turn: the first completes INIT and idles, the second faults. -/
theorem witness_EnginesDoNotInterfere :
    Platform.run [0, 1, 0] #v[completing 0x0100000000 finalizedState, completing 0x0000000000 State.reset] =
      some #v[startHash finalizedState, raiseFault .illegalCommand State.reset] := by decide +kernel

/-- The last operand in range and the first out of it. -/
theorem witness_AssemblerNeverTruncates :
    Asm.assemble (.updateByte 255) = some [.updateByte 0xFF] ∧ Asm.assemble (.updateByte 256) = none ∧
    Asm.assemble (.updateU32le 4294967295) = some [.updateU32le 0xFFFFFFFF] ∧
    Asm.assemble (.updateU32le 4294967296) = none ∧
    Asm.assemble (.absorbBytes [0, 255]) = some [.updateByte 0x00, .updateByte 0xFF] ∧
    Asm.assemble (.absorbWords [1, 4294967295]) = some [.updateU32le 1, .updateU32le 0xFFFFFFFF] ∧
    ([0, 255] : List Nat) ≠ [] ∧ (∀ n ∈ [0, 255], n < 256) ∧ (∀ n ∈ [1, 4294967295], n < 4294967296) := by decide +kernel

theorem witness_AbsorbStrIsTheLittleEndianWord :
    (absorbingAt 0 6 16).phase = .absorbing ∧ InRange (absorbingAt 0 6 16) := by decide

end Sys2Proof.Tests
end

section
/-! SUPPORT. What Theta and Chi give at one lane, and the claim about them in (x, y) coordinates (00_scope.md R12,
41_permutation.md R121, R124). -/

namespace Sys2Proof.Machine

/-- Theta at lane `i`: the mix of its own column is XORed in. -/
theorem theta_getElem (A : Lanes) (i : Nat) (hi : i < 25) :
    (theta A)[i] = A[i] ^^^ columnMix A ⟨i % 5, Nat.mod_lt i (by decide)⟩ := by
  simp [theta]

/-- Chi at lane `i`: the two lanes after it in its own row, input values. -/
theorem chi_getElem (A : Lanes) (i : Nat) (hi : i < 25) :
    (chi A)[i] =
      A[i] ^^^ (~~~A[5 * (i / 5) + (i % 5 + 1) % 5] &&& A[5 * (i / 5) + (i % 5 + 2) % 5]) := by
  simp [chi]

/-- Theta at column `x`, row `y`: every row gets the mix of column `x`. -/
theorem theta_at (A : Lanes) (x y : Fin 5) :
    (theta A)[x.val + 5 * y.val] = A[x.val + 5 * y.val] ^^^ columnMix A x := by
  have column : (x.val + 5 * y.val) % 5 = x.val := by omega
  simp only [theta_getElem, column]

/-- Chi at column `x`, row `y`: columns `x + 1` and `x + 2` of the same row, counted modulo 5. -/
theorem chi_at (A : Lanes) (x y : Fin 5) :
    (chi A)[x.val + 5 * y.val] =
      A[x.val + 5 * y.val] ^^^ (~~~A[(x + 1).val + 5 * y.val] &&& A[(x + 2).val + 5 * y.val]) := by
  have column : (x.val + 5 * y.val) % 5 = x.val := by omega
  have row : (x.val + 5 * y.val) / 5 = y.val := by omega
  have next (k : Fin 5) : 5 * y.val + (x.val + k.val) % 5 = (x + k).val + 5 * y.val := by
    rw [Fin.val_add, Nat.add_comm]
  have next1 : 5 * y.val + (x.val + 1) % 5 = (x + 1).val + 5 * y.val := next 1
  have next2 : 5 * y.val + (x.val + 2) % 5 = (x + 2).val + 5 * y.val := next 2
  simp only [chi_getElem, column, row, next1, next2]

/-- Settles O8: Theta by its column mix, Chi by its row, each read at lane `x + 5y`. The statement's `C` and rotation are
`columnParity` and `rotl64` written out. -/
theorem thetaAndChiByCoordinates : Obligations.ThetaAndChiByCoordinates := by
  intro A x y
  refine ⟨?_, chi_at A x y⟩
  rw [theta_at, BitVec.xor_assoc]
  rfl

/-! What the command in flight becomes under each operation, and the latency bound of every step
(70_reset_and_hazards.md R233). -/

@[simp] theorem acceptWord_inFlight (w : CmdWord) (s : State) :
    (acceptWord w s).inFlight = some { word := w, edgesLeft := busyTime w s % latencyBound w } := rfl

@[simp] theorem countDown_inFlight (c : InFlight) (s : State) :
    (countDown c s).inFlight = some { c with edgesLeft := c.edgesLeft - 1 } := rfl

@[simp] theorem finishHash_inFlight (s : State) : (finishHash s).inFlight = s.inFlight := by
  rw [finishHash_eq]

/-- No command writes the command in flight. -/
theorem exec_inFlight {i : Instr} {s t : State} (h : exec i s = .next t) : t.inFlight = s.inFlight := by
  obtain ⟨-, rfl⟩ | ⟨-, -, rfl⟩ | ⟨-, -, rfl⟩ | ⟨-, -, rfl⟩ |
    ⟨-, -, ⟨v, -, rfl⟩ | ⟨w, -, rfl⟩ | ⟨-, rfl⟩⟩ := exec_cases h
  · rfl
  · exact startHash_inFlight s
  · exact raiseFault_inFlight _ s
  · exact raiseFault_inFlight _ s
  · exact absorbByte_inFlight v s
  · exact absorbBytes_inFlight _ s
  · exact finishHash_inFlight s

/-- No command word, legal or not, writes the command in flight. -/
theorem runWord_inFlight {w : CmdWord} {s t : State} (h : runWord w s = .next t) : t.inFlight = s.inFlight := by
  obtain ⟨-, rfl⟩ | ⟨-, -, rfl⟩ | ⟨-, i, -, hi⟩ := runWord_cases h
  · rfl
  · exact raiseFault_inFlight _ s
  · exact exec_inFlight hi

/-- With no command in flight there is nothing to bound. -/
theorem flightInv_of_none {s : State} (h : s.inFlight = none) : FlightInv s := by
  simp [FlightInv, h]

/-- With `c` in flight the bound is the one of `c`. -/
theorem flightInv_iff_of_some {s : State} {c : InFlight} (h : s.inFlight = some c) :
    FlightInv s ↔ c.edgesLeft < (latencyBound c.word : Nat) := by
  simp [FlightInv, h]

/-- An accepted word starts within its bound: its busy time is cut to it. -/
theorem flightInv_acceptWord (w : CmdWord) (s : State) : FlightInv (acceptWord w s) :=
  (flightInv_iff_of_some (acceptWord_inFlight w s)).2 (Nat.mod_lt _ (latencyBound w).pos)

/-- Counting down stays within the bound. -/
theorem flightInv_countDown {c : InFlight} {s : State} (hc : s.inFlight = some c) (h : FlightInv s) :
    FlightInv (countDown c s) :=
  (flightInv_iff_of_some (countDown_inFlight c s)).2
    (Nat.lt_of_le_of_lt (Nat.sub_le _ _) ((flightInv_iff_of_some hc).1 h))

/-- A clock edge keeps the latency bound, whatever the host drives at it. -/
theorem clockEdge_flightInv {inp : PortInput} {s t : State} (hs : FlightInv s) (h : clockEdge inp s = .next t) :
    FlightInv t := by
  obtain ⟨-, rfl⟩ | ⟨-, c, -, -, hw⟩ | ⟨-, c, hc, -, rfl⟩ | ⟨-, -, -, rfl⟩ | ⟨-, -, -, rfl⟩ := clockEdge_cases h
  · exact flightInv_of_none (applyReset_inFlight s)
  · exact flightInv_of_none ((runWord_inFlight hw).trans (retire_inFlight s))
  · exact flightInv_countDown hc hs
  · exact flightInv_acceptWord inp.cmdWord s
  · exact hs

/-- Settles O33: a step is a clock edge, by the cases of what the edge can do. -/
theorem stepKeepsFlightBound : Obligations.StepKeepsFlightBound :=
  fun s _ hs h => clockEdge_flightInv (s := passEdge s) hs h

/-! What a step of one engine of a platform does to each engine, and that engines do not interfere
(60_exceptions.md R210, R211). -/

/-- A first step that answers, then the rest. -/
theorem runSteps_succ_of_step {s t : State} (h : step s = .next t) (k : Nat) :
    runSteps (k + 1) s = runSteps k t := by
  simp only [runSteps, h]

/-- Everything a step of engine `k` can do when it answers: `k` takes its own step and no other place is written. -/
theorem Platform.stepEngine_cases {n : Nat} {p p' : Platform n} {k : Fin n} (h : p.stepEngine k = some p') :
    ∃ s, step p[k] = .next s ∧ p' = p.set k s := by
  unfold Platform.stepEngine at h
  split at h
  next s hs => exact ⟨s, hs, by simpa using h.symm⟩
  next => cases h
  next => cases h

/-- The engine that steps takes its own step. -/
theorem Platform.stepEngine_self {n : Nat} {p p' : Platform n} {k : Fin n} (h : p.stepEngine k = some p') :
    step p[k] = .next p'[k] := by
  obtain ⟨s, hs, rfl⟩ := Platform.stepEngine_cases h
  simpa using hs

/-- The other engines keep their state. -/
theorem Platform.stepEngine_other {n : Nat} {p p' : Platform n} {k j : Fin n} (h : p.stepEngine k = some p')
    (hj : k ≠ j) :
    p'[j] = p[j] := by
  obtain ⟨s, -, rfl⟩ := Platform.stepEngine_cases h
  exact Vector.getElem_set_ne _ _ (Fin.val_ne_of_ne hj)

/-- A run that answers is a first step that answers, then a run that answers. -/
theorem Platform.run_cons_cases {n : Nat} {k : Fin n} {order : List (Fin n)} {p q : Platform n}
    (h : Platform.run (k :: order) p = some q) : ∃ p', p.stepEngine k = some p' ∧ Platform.run order p' = some q := by
  unfold Platform.run at h
  split at h
  next p' hp => exact ⟨p', hp, h⟩
  next => cases h

/-- Settles O48, by induction on the order of the steps: the first step is the observed engine's own or leaves it
alone. -/
theorem enginesDoNotInterfere : Obligations.EnginesDoNotInterfere := by
  intro n order
  induction order with
  | nil =>
    intro p q h j
    cases h
    rfl
  | cons k rest ih =>
    intro p q h j
    obtain ⟨p', hp, hrest⟩ := Platform.run_cons_cases h
    have tail : runSteps (rest.count j) p'[j] = .next q[j] := ih p' q hrest j
    by_cases hj : k = j
    · subst hj
      rw [List.count_cons_self, runSteps_succ_of_step (Platform.stepEngine_self hp)]
      exact tail
    · rw [List.count_cons_of_ne hj, ← Platform.stepEngine_other hp hj]
      exact tail

end Sys2Proof.Machine
end

section
/-! SUPPORT. What each command writes when it runs, and what it answers in each phase (60_exceptions.md R203-R207). -/

namespace Sys2Proof.Machine

/-- What a command writes when it takes effect: INIT outside FAULTED, any other command in ABSORBING
(`exec_init_runs`, `exec_absorbing`). -/
def commandBody : Instr → State → State
  | .init => startHash
  | .updateByte imm8 => absorbByte imm8
  | .updateU32le imm32 => absorbBytes (wordBytes imm32)
  | .finalize => finishHash

/-- An update writes what absorbing its bytes writes. -/
theorem commandBody_of_isUpdate {i : Instr} (hi : isUpdate i = true) (s : State) :
    commandBody i s = absorbBytes (bytesOf i) s := by
  cases i with
  | init => cases hi
  | updateByte v => rfl
  | updateU32le w => rfl
  | finalize => cases hi

/-- A command other than INIT is the phase check around what it writes. -/
theorem exec_eq_whenAbsorbing {i : Instr} (hi : i ≠ .init) (s : State) :
    exec i s = whenAbsorbing (commandBody i) s := by
  cases i with
  | init => contradiction
  | updateByte v => rfl
  | updateU32le w => rfl
  | finalize => rfl

theorem exec_init_runs {s : State} (hp : s.phase ≠ .faulted) : exec .init s = .next (startHash s) :=
  execInit_next hp

theorem exec_faulted (i : Instr) {s : State} (hp : s.phase = .faulted) : exec i s = .next s := by
  by_cases hi : i = .init
  · subst hi
    simp only [exec, execInit, hp]
  · rw [exec_eq_whenAbsorbing hi]
    exact (whenAbsorbing_otherwise _ s).2.2 hp

theorem exec_uninit {i : Instr} (hi : i ≠ .init) {s : State} (hp : s.phase = .uninit) :
    exec i s = .next (raiseFault .useBeforeInit s) := by
  rw [exec_eq_whenAbsorbing hi]
  exact (whenAbsorbing_otherwise _ s).1 hp

theorem exec_finalized {i : Instr} (hi : i ≠ .init) {s : State} (hp : s.phase = .finalized) :
    exec i s = .next (raiseFault .misuseAfterFinalize s) := by
  rw [exec_eq_whenAbsorbing hi]
  exact (whenAbsorbing_otherwise _ s).2.1 hp

theorem exec_absorbing (i : Instr) {s : State} (hp : s.phase = .absorbing) (hr : InRange s) :
    exec i s = .next (commandBody i s) := by
  by_cases hi : i = .init
  · subst hi
    exact exec_init_runs (by simp [hp])
  · rw [exec_eq_whenAbsorbing hi]
    exact whenAbsorbing_next _ hp hr

/-- Everything a command can do, with what it writes under one name. -/
theorem exec_cases_body {i : Instr} {s t : State} (h : exec i s = .next t) :
    (s.phase = .faulted ∧ t = s) ∨
    (i ≠ .init ∧ s.phase = .uninit ∧ t = raiseFault .useBeforeInit s) ∨
    (i ≠ .init ∧ s.phase = .finalized ∧ t = raiseFault .misuseAfterFinalize s) ∨
    ((i = .init ∧ s.phase ≠ .faulted ∨ s.phase = .absorbing ∧ InRange s) ∧ t = commandBody i s) := by
  obtain hf | ⟨rfl, hp, ht⟩ | hu | hz | ⟨hp, hr, ⟨v, rfl, ht⟩ | ⟨w, rfl, ht⟩ | ⟨rfl, ht⟩⟩ := exec_cases h
  · exact .inl hf
  · exact .inr (.inr (.inr ⟨.inl ⟨rfl, hp⟩, ht⟩))
  · exact .inr (.inl hu)
  · exact .inr (.inr (.inl hz))
  · exact .inr (.inr (.inr ⟨.inr ⟨hp, hr⟩, ht⟩))
  · exact .inr (.inr (.inr ⟨.inr ⟨hp, hr⟩, ht⟩))
  · exact .inr (.inr (.inr ⟨.inr ⟨hp, hr⟩, ht⟩))

/-- A command that answers in ABSORBING took effect, and had its indices in range unless it was INIT. -/
theorem exec_absorbing_cases {i : Instr} {s t : State} (hp : s.phase = .absorbing) (h : exec i s = .next t) :
    t = commandBody i s ∧ (i = .init ∨ InRange s) := by
  obtain ⟨hf, -⟩ | ⟨-, hu, -⟩ | ⟨-, hz, -⟩ | ⟨⟨hi, -⟩ | ⟨-, hr⟩, ht⟩ := exec_cases_body h
  · cases hp.symm.trans hf
  · cases hp.symm.trans hu
  · cases hp.symm.trans hz
  · exact ⟨ht, .inl hi⟩
  · exact ⟨ht, .inr hr⟩

/-- An update that answers in ABSORBING absorbed its bytes, with the indices in range. -/
theorem exec_update_cases {i : Instr} {s t : State} (hp : s.phase = .absorbing) (hi : isUpdate i = true)
    (h : exec i s = .next t) : t = absorbBytes (bytesOf i) s ∧ InRange s := by
  obtain ⟨rfl, rfl | hr⟩ := exec_absorbing_cases hp h
  · cases hi
  · exact ⟨commandBody_of_isUpdate hi s, hr⟩

/-! What every command leaves alone. -/

@[simp] theorem finishHash_phase (s : State) : (finishHash s).phase = .finalized := rfl
@[simp] theorem finishHash_faultCode (s : State) : (finishHash s).faultCode = s.faultCode := by rw [finishHash_eq]
@[simp] theorem finishHash_padMode (s : State) : (finishHash s).padMode = s.padMode := by rw [finishHash_eq]
@[simp] theorem finishHash_permCount (s : State) : (finishHash s).permCount = s.permCount + 1 := by
  rw [finishHash_eq]
@[simp] theorem finishHash_host (s : State) : (finishHash s).host = s.host := by rw [finishHash_eq]
@[simp] theorem finishHash_freeCount (s : State) : (finishHash s).freeCount = s.freeCount := by rw [finishHash_eq]

/-- What a command that takes effect leaves alone. -/
theorem commandBody_frame (i : Instr) (s : State) :
    (commandBody i s).faultCode = s.faultCode ∧ (commandBody i s).padMode = s.padMode ∧
    (commandBody i s).host = s.host ∧ (commandBody i s).freeCount = s.freeCount := by
  cases i <;> simp [commandBody]

/-- No command writes `PAD_MODE`, the host's list or the free-value counter (10_state.md R29). -/
theorem exec_frame {i : Instr} {s t : State} (h : exec i s = .next t) :
    t.padMode = s.padMode ∧ t.host = s.host ∧ t.freeCount = s.freeCount := by
  obtain ⟨-, rfl⟩ | ⟨-, -, rfl⟩ | ⟨-, -, rfl⟩ | ⟨-, rfl⟩ := exec_cases_body h
  · exact ⟨rfl, rfl, rfl⟩
  · exact ⟨rfl, rfl, rfl⟩
  · exact ⟨rfl, rfl, rfl⟩
  · exact (commandBody_frame i s).2

/-- Two states on which the phase check decides alike. -/
structure SameChecks (s s' : State) : Prop where
  phase : s'.phase = s.phase
  byteIndex : s'.byteIndex = s.byteIndex
  laneIndex : s'.laneIndex = s.laneIndex

/-- A relation between states that fault entry and a command's writes keep is kept by the command in every phase. -/
theorem exec_simulates {R : State → State → Prop} {i : Instr} (checks : ∀ s s', R s s' → SameChecks s s')
    (raise : ∀ code s s', R s s' → R (raiseFault code s) (raiseFault code s'))
    (body : ∀ s s', R s s' → R (commandBody i s) (commandBody i s'))
    {s s' t : State} (hs : R s s') (h : exec i s = .next t) : ∃ t', exec i s' = .next t' ∧ R t t' := by
  obtain ⟨phase, byteIndex, laneIndex⟩ := checks s s' hs
  obtain ⟨hp, rfl⟩ | ⟨hi, hp, rfl⟩ | ⟨hi, hp, rfl⟩ | ⟨⟨rfl, hp⟩ | ⟨hp, hr⟩, rfl⟩ := exec_cases_body h
  · exact ⟨s', exec_faulted i (phase.trans hp), hs⟩
  · exact ⟨_, exec_uninit hi (phase.trans hp), raise _ _ _ hs⟩
  · exact ⟨_, exec_finalized hi (phase.trans hp), raise _ _ _ hs⟩
  · exact ⟨_, exec_init_runs (phase ▸ hp), body _ _ hs⟩
  · have hr' : InRange s' := by rwa [InRange, byteIndex, laneIndex]
    exact ⟨_, exec_absorbing i (phase.trans hp) hr', body _ _ hs⟩

end Sys2Proof.Machine
end

section
/-! SUPPORT. The invariant of 10_state.md R22, R23, R24, R26 and R36: what each operation does to it, and that every step
keeps it. -/

namespace Sys2Proof.Machine

/-- Byte `k` of a lane ends below bit `8 * (k + 1)`. -/
theorem placeByte_toNat_lt (v : Byte) (k : Nat) : (placeByte v k).toNat < 2 ^ (8 * (k + 1)) := by
  have byte : v.toNat < 2 ^ 8 := v.isLt
  calc (placeByte v k).toNat
      = v.toNat * 2 ^ (8 * k) % 2 ^ 64 := by simp [placeByte, Nat.shiftLeft_eq]
    _ ≤ v.toNat * 2 ^ (8 * k) := Nat.mod_le _ _
    _ < 2 ^ 8 * 2 ^ (8 * k) := Nat.mul_lt_mul_of_pos_right byte (Nat.two_pow_pos _)
    _ = 2 ^ (8 * (k + 1)) := by rw [← Nat.pow_add]; congr 1; omega

/-- One more byte in the buffer fits in one more byte. -/
theorem pending_or_placeByte_lt {p : Lane} {k : Nat} (hp : p.toNat < 2 ^ (8 * k)) (v : Byte) :
    (p ||| placeByte v k).toNat < 2 ^ (8 * (k + 1)) := by
  rw [BitVec.toNat_or]
  exact Nat.or_lt_two_pow (Nat.lt_of_lt_of_le hp (Nat.pow_le_pow_right (by decide) (by omega)))
    (placeByte_toNat_lt v k)

/-- What the invariant says of a state in ABSORBING. -/
def Buffered (s : State) : Prop := InRange s ∧ s.pending.toNat < 2 ^ (8 * s.byteIndex.toNat)

theorem indexInv_iff (s : State) : IndexInv s ↔ (s.phase = .absorbing → Buffered s) := by
  simp only [Buffered, and_assoc]

/-- INIT empties the buffer. -/
theorem startHash_buffered (s : State) : Buffered (startHash s) := by simp [Buffered, InRange]

/-- Absorbing a byte keeps the indices in range. -/
theorem absorbByte_inRange (v : Byte) {s : State} (hr : InRange s) : InRange (absorbByte v s) := by
  obtain ⟨hb, hl⟩ := hr
  by_cases h7 : s.byteIndex = 7
  · by_cases h16 : s.laneIndex = 16
    · rw [absorbByte_fillBlock v s h7 h16]
      exact ⟨Nat.zero_le 7, Nat.zero_le 16⟩
    · rw [absorbByte_fillLane v s h7 h16]
      exact ⟨Nat.zero_le 7, show (s.laneIndex + 1).toNat ≤ 16 by bv_omega⟩
  · rw [absorbByte_buffer v s h7]
    exact ⟨show (s.byteIndex + 1).toNat ≤ 7 by bv_omega, hl⟩

/-- Absorbing a byte string keeps the indices in range. -/
theorem absorbBytes_inRange (bytes : List Byte) {s : State} (hr : InRange s) : InRange (absorbBytes bytes s) := by
  induction bytes generalizing s with
  | nil => exact hr
  | cons v rest ih => exact ih (absorbByte_inRange v hr)

/-- Absorbing a byte keeps the buffer as it should be: a full lane leaves it empty, otherwise it holds one more byte. -/
theorem absorbByte_buffered (v : Byte) {s : State} (hs : Buffered s) : Buffered (absorbByte v s) := by
  obtain ⟨hr, hp⟩ := hs
  refine ⟨absorbByte_inRange v hr, ?_⟩
  by_cases h7 : s.byteIndex = 7
  · by_cases h16 : s.laneIndex = 16
    · simp [absorbByte_fillBlock v s h7 h16]
    · simp [absorbByte_fillLane v s h7 h16]
  · have next : (s.byteIndex + 1).toNat = s.byteIndex.toNat + 1 := by
      have hb := hr.1
      bv_omega
    rw [absorbByte_buffer v s h7]
    simpa only [next] using pending_or_placeByte_lt hp v

/-- Absorbing a byte string keeps the buffer as it should be. -/
theorem absorbBytes_buffered (bytes : List Byte) {s : State} (hs : Buffered s) : Buffered (absorbBytes bytes s) := by
  induction bytes generalizing s with
  | nil => exact hs
  | cons v rest ih => exact ih (absorbByte_buffered v hs)

/-- Outside ABSORBING nothing is asked of the indices and the buffer. -/
theorem indexInv_of_phase_ne {s : State} (hp : s.phase ≠ .absorbing) : IndexInv s := fun h => absurd h hp

theorem indexInv_of_buffered {s : State} (hs : Buffered s) : IndexInv s := (indexInv_iff s).2 fun _ => hs

theorem faultInv_of_none {s : State} (hp : s.phase ≠ .faulted) (hc : s.faultCode = .none) : FaultInv s := by
  simp [FaultInv, hp, hc]

theorem faultCode_of_faultInv {s : State} (hs : FaultInv s) (hp : s.phase ≠ .faulted) : s.faultCode = .none :=
  Classical.not_not.1 (mt hs.2 hp)

/-- Fault entry keeps the invariant. -/
theorem raiseFault_engineInv {code : FaultCode} (hc : code ≠ .none) (s : State) : EngineInv (raiseFault code s) :=
  ⟨indexInv_of_phase_ne (by simp), by simp [FaultInv, hc]⟩

/-- Every command keeps the invariant. -/
theorem exec_engineInv {i : Instr} {s t : State} (hs : EngineInv s) (h : exec i s = .next t) : EngineInv t := by
  obtain ⟨hindex, hfault⟩ := hs
  obtain ⟨-, rfl⟩ | ⟨-, hp, rfl⟩ | ⟨-, -, rfl⟩ | ⟨-, -, rfl⟩ |
    ⟨hp, -, ht⟩ := exec_cases h
  · exact ⟨hindex, hfault⟩
  · exact ⟨indexInv_of_buffered (startHash_buffered s),
      faultInv_of_none (by simp) ((startHash_faultCode s).trans (faultCode_of_faultInv hfault hp))⟩
  · exact raiseFault_engineInv (by decide) s
  · exact raiseFault_engineInv (by decide) s
  · have buffered : Buffered s := (indexInv_iff s).1 hindex hp
    have noFault : s.faultCode = .none := faultCode_of_faultInv hfault (by simp [hp])
    obtain ⟨v, -, rfl⟩ | ⟨w, -, rfl⟩ | ⟨-, rfl⟩ := ht
    · exact ⟨indexInv_of_buffered (absorbByte_buffered v buffered), faultInv_of_none (by simp [hp]) (by simp [noFault])⟩
    · exact ⟨indexInv_of_buffered (absorbBytes_buffered _ buffered), faultInv_of_none (by simp [hp]) (by simp [noFault])⟩
    · exact ⟨indexInv_of_phase_ne (by simp), faultInv_of_none (by simp) (by simp [noFault])⟩

/-- Every command word, legal or not, keeps the invariant. -/
theorem runWord_engineInv {w : CmdWord} {s t : State} (hs : EngineInv s) (h : runWord w s = .next t) :
    EngineInv t := by
  obtain ⟨-, rfl⟩ | ⟨-, -, rfl⟩ | ⟨-, i, -, hi⟩ := runWord_cases h
  · exact hs
  · exact raiseFault_engineInv (by decide) s
  · exact exec_engineInv hs hi

/-- A clock edge keeps the invariant, whatever the host drives at it. -/
theorem clockEdge_engineInv {inp : PortInput} {s t : State} (hs : EngineInv s) (h : clockEdge inp s = .next t) :
    EngineInv t := by
  obtain ⟨-, rfl⟩ | ⟨-, c, -, -, hw⟩ | ⟨-, c, -, -, rfl⟩ | ⟨-, -, -, rfl⟩ | ⟨-, -, -, rfl⟩ := clockEdge_cases h
  · exact ⟨indexInv_of_phase_ne (by simp), faultInv_of_none (by simp) rfl⟩
  · exact runWord_engineInv (s := retire s) hs hw
  · exact hs
  · exact hs
  · exact hs

/-- Settles O30: a step is a clock edge, by the cases of what the edge can do; the registers the invariant reads are
written by the completing command alone. -/
theorem stepKeepsInv : Obligations.StepKeepsInv :=
  fun s _ hs h => clockEdge_engineInv (s := passEdge s) hs h

end Sys2Proof.Machine
end

section
/-! SUPPORT. Where a command and a step stop, and what they do to PHASE (10_state.md R25, R36). -/

namespace Sys2Proof.Machine

/-- The phase check stops in ABSORBING with an index out of range. -/
theorem whenAbsorbing_stops (body : State → State) {s : State} (hp : s.phase = .absorbing) (hr : ¬ InRange s) :
    whenAbsorbing body s = .fault .indexOutOfRange := by
  simp only [whenAbsorbing, hp, mt (indicesInRange_iff s).1 hr, Bool.false_eq_true, if_false]

/-- A command answers a next state unless it absorbs with an index out of range. -/
theorem exec_answers {i : Instr} {s : State} (h : ¬ (i ≠ .init ∧ s.phase = .absorbing ∧ ¬ InRange s)) :
    ∃ t, exec i s = .next t := by
  by_cases hi : i = .init
  · subst hi
    by_cases hp : s.phase = .faulted
    · exact ⟨_, exec_faulted _ hp⟩
    · exact ⟨_, exec_init_runs hp⟩
  · cases hp : s.phase with
    | uninit => exact ⟨_, exec_uninit hi hp⟩
    | finalized => exact ⟨_, exec_finalized hi hp⟩
    | faulted => exact ⟨_, exec_faulted i hp⟩
    | absorbing =>
      have hr : InRange s := by_contra fun hr => h ⟨hi, hp, hr⟩
      exact ⟨_, exec_absorbing i hp hr⟩

/-- Settles O32: an absorbing command out of range stops by name, and every other command answers, so it does not stop. -/
theorem stopsExactlyOutOfRange : Obligations.StopsExactlyOutOfRange := by
  intro i s
  refine ⟨⟨fun stops => ?_, fun ⟨hi, hp, hr⟩ => ?_⟩, exec_answers⟩
  · by_contra h
    obtain ⟨t, ht⟩ := exec_answers h
    cases stops.symm.trans ht
  · rw [exec_eq_whenAbsorbing hi]
    exact whenAbsorbing_stops _ hp hr

/-- A state that meets the invariant has its indices in range where they are checked. -/
theorem inRange_of_engineInv {s : State} (hs : EngineInv s) (hp : s.phase = .absorbing) : InRange s :=
  ((indexInv_iff s).1 hs.1 hp).1

/-- A command word answers a next state from a state that meets the invariant. -/
theorem runWord_answers (w : CmdWord) {s : State} (hs : EngineInv s) : ∃ t, runWord w s = .next t := by
  by_cases hp : s.phase = .faulted
  · exact ⟨_, runWord_faulted w hp⟩
  · cases hd : decode w with
    | illegal why => exact ⟨_, runWord_illegal hd hp⟩
    | command i =>
      rw [runWord_command hd hp]
      exact exec_answers fun ⟨_, ha, hr⟩ => hr (inRange_of_engineInv hs ha)

/-- A clock edge answers a next state unless the word that completes at it stops. -/
theorem clockEdge_answers (inp : PortInput) {s : State}
    (words : ∀ w, ∃ t, runWord w (retire s) = .next t) : ∃ t, clockEdge inp s = .next t := by
  unfold clockEdge
  split
  · exact ⟨_, rfl⟩
  · split
    next c _ =>
      split
      · exact words c.word
      · exact ⟨_, rfl⟩
    next =>
      split
      · exact ⟨_, rfl⟩
      · exact ⟨_, rfl⟩

/-- Settles O31: only a completing command could stop the step, and the invariant keeps its indices in range. -/
theorem stepNeverStops : Obligations.StepNeverStops :=
  fun s hs => clockEdge_answers s.input fun w => runWord_answers w (s := retire (passEdge s)) hs

/-- What a command can do to PHASE: keep it, INIT to ABSORBING, FINALIZE from ABSORBING to FINALIZED, or a fault. -/
theorem exec_phase_cases {i : Instr} {s t : State} (h : exec i s = .next t) :
    t.phase = s.phase ∨
    (i = .init ∧ t.phase = .absorbing) ∨
    (i = .finalize ∧ s.phase = .absorbing ∧ t.phase = .finalized) ∨
    (i ≠ .init ∧ t.phase = .faulted ∧ t.faultCode ≠ .none) := by
  obtain ⟨-, rfl⟩ | ⟨hi, -, rfl⟩ | ⟨hi, -, rfl⟩ | ⟨hi, -, rfl⟩ |
    ⟨hp, -, ⟨v, -, rfl⟩ | ⟨w, -, rfl⟩ | ⟨hi, rfl⟩⟩ := exec_cases h
  · exact .inl rfl
  · exact .inr (.inl ⟨hi, rfl⟩)
  · exact .inr (.inr (.inr ⟨hi, rfl, by simp⟩))
  · exact .inr (.inr (.inr ⟨hi, rfl, by simp⟩))
  · exact .inl (absorbByte_phase v s)
  · exact .inl (absorbBytes_phase _ s)
  · exact .inr (.inr (.inl ⟨hi, hp, rfl⟩))

/-- A command word that changes PHASE does so outside FAULTED, in one of the three ways. -/
theorem runWord_phase_cases {w : CmdWord} {s t : State} (h : runWord w s = .next t) (hne : t.phase ≠ s.phase) :
    s.phase ≠ .faulted ∧
    ((decode w = .command .init ∧ t.phase = .absorbing) ∨
     (decode w = .command .finalize ∧ s.phase = .absorbing ∧ t.phase = .finalized) ∨
     (decode w ≠ .command .init ∧ t.phase = .faulted ∧ t.faultCode ≠ .none)) := by
  obtain ⟨-, rfl⟩ | ⟨hp, ⟨why, hd⟩, rfl⟩ | ⟨hp, i, hd, hi⟩ := runWord_cases h
  · exact absurd rfl hne
  · exact ⟨hp, .inr (.inr ⟨by simp [hd], rfl, by simp⟩)⟩
  · refine ⟨hp, ?_⟩
    obtain same | ⟨rfl, ht⟩ | ⟨rfl, hs, ht⟩ | ⟨hi, ht⟩ := exec_phase_cases hi
    · exact absurd same hne
    · exact .inl ⟨hd, ht⟩
    · exact .inr (.inl ⟨hd, hs, ht⟩)
    · exact .inr (.inr ⟨by simpa [hd] using hi, ht⟩)

/-- Settles O27: of what a clock edge can do, only reset and a completing command write PHASE. -/
theorem phaseChangesOnlySo : Obligations.PhaseChangesOnlySo := by
  intro s t h hne
  rw [step_eq] at h
  obtain ⟨hr, rfl⟩ | ⟨hr, c, hc, h0, hw⟩ | ⟨-, c, -, -, rfl⟩ | ⟨-, -, -, rfl⟩ | ⟨-, -, -, rfl⟩ := clockEdge_cases h
  · exact .inl ⟨hr, rfl⟩
  · obtain ⟨hp, ways⟩ := runWord_phase_cases hw hne
    exact .inr ⟨hr, hp, (runWord_inFlight hw).trans (retire_inFlight _), c, hc, h0, ways⟩
  · exact absurd rfl hne
  · exact absurd rfl hne
  · exact absurd rfl hne

end Sys2Proof.Machine
end

section
/-! SUPPORT. What the ports show (10_state.md R28, R34, R172) and on what it depends. -/

namespace Sys2Proof.Machine

/-- STATUS bit by bit: the four fields, then BUSY, DIGEST_VALID, PAD_MODE and a 0 (10_state.md R28). -/
theorem status_getLsbD (s : State) (k : Nat) :
    s.status.getLsbD k =
      if k < 4 then s.statusFields.getLsbD k
      else if k = 4 then s.busy
      else if k = 5 then s.digestValid
      else if k = 6 then (padModeCode s.padMode).getLsbD 0
      else false := by
  have h : s.status.getLsbD k =
    (0#1 ++ padModeCode s.padMode ++ BitVec.ofBool s.digestValid ++ BitVec.ofBool s.busy ++
      s.statusFields).getLsbD k := rfl
  rw [h]
  simp only [BitVec.getLsbD_append]
  obtain hk | rfl | rfl | rfl | hk : k < 4 ∨ k = 4 ∨ k = 5 ∨ k = 6 ∨ 7 ≤ k := by omega
  · simp [hk]
  · simp
  · simp
  · simp
  · simp [show ¬ k < 4 by omega, show k ≠ 4 by omega, show k ≠ 5 by omega, show k ≠ 6 by omega,
      show ¬ k - 4 < 1 by omega, show ¬ k - 4 - 1 < 1 by omega, show ¬ k - 4 - 1 - 1 < 1 by omega]

/-- While `BUSY = 0` the fields of STATUS are FAULT_CODE above PHASE. -/
theorem statusFields_getLsbD {s : State} (hb : s.busy = false) (k : Nat) :
    s.statusFields.getLsbD k = if k < 2 then s.phase.code.getLsbD k else s.faultCode.code.getLsbD (k - 2) := by
  have fields : s.statusFields = s.faultCode.code ++ s.phase.code := by simp [State.statusFields, hb]
  rw [fields]
  exact BitVec.getLsbD_append

/-- While `BUSY = 0` the low two bits of STATUS are PHASE. -/
theorem status_phase {s : State} (hb : s.busy = false) : s.status.extractLsb' 0 2 = s.phase.code := by
  ext k hk
  rw [← BitVec.getLsbD_eq_getElem, ← BitVec.getLsbD_eq_getElem, BitVec.getLsbD_extractLsb', status_getLsbD]
  simp only [Nat.zero_add, statusFields_getLsbD hb, show k < 4 by omega, hk, decide_true, Bool.true_and, if_true]

/-- While `BUSY = 0` the next two bits of STATUS are FAULT_CODE. -/
theorem status_faultCode {s : State} (hb : s.busy = false) : s.status.extractLsb' 2 2 = s.faultCode.code := by
  ext k hk
  rw [← BitVec.getLsbD_eq_getElem, ← BitVec.getLsbD_eq_getElem, BitVec.getLsbD_extractLsb', status_getLsbD]
  simp only [statusFields_getLsbD hb, show 2 + k < 4 by omega, show ¬ 2 + k < 2 by omega, hk, Nat.add_sub_cancel_left,
    decide_true, Bool.true_and, if_true, if_false]

/-- The code of PAD_MODE is 1 exactly for KECCAK (10_state.md R29). -/
theorem padModeCode_getLsbD_zero (m : PadMode) : (padModeCode m).getLsbD 0 = true ↔ m = .keccak := by
  cases m <;> decide

/-- Settles O37: each bit by `status_getLsbD`. -/
theorem statusBits : Obligations.StatusBits := by
  intro s
  refine ⟨fun hb => ⟨status_phase hb, status_faultCode hb⟩, ?_, ?_, ?_, ?_, ?_⟩
  · exact status_getLsbD s 4
  · exact status_getLsbD s 5
  · rw [show s.status.getLsbD 6 = (padModeCode s.padMode).getLsbD 0 from status_getLsbD s 6]
    exact padModeCode_getLsbD_zero s.padMode
  · exact status_getLsbD s 7
  · rintro rfl
    rfl

/-- DIGEST_VALID is a function of PHASE and the command in flight. -/
theorem digestValid_congr {s s' : State} (phase : s.phase = s'.phase) (inFlight : s.inFlight = s'.inFlight) :
    s.digestValid = s'.digestValid := by
  simp only [State.digestValid, State.busy, phase, inFlight]

/-- STATUS is a function of PHASE, FAULT_CODE, PAD_MODE, the command in flight and the free-value counter. -/
theorem status_congr {s s' : State} (phase : s.phase = s'.phase) (faultCode : s.faultCode = s'.faultCode)
    (padMode : s.padMode = s'.padMode) (inFlight : s.inFlight = s'.inFlight)
    (freeCount : s.freeCount = s'.freeCount) : s.status = s'.status := by
  have busy : s.busy = s'.busy := congrArg Option.isSome inFlight
  have fields : s.statusFields = s'.statusFields := by
    simp only [State.statusFields, busy, phase, faultCode, freeCount]
  simp only [State.status, fields, busy, digestValid_congr phase inFlight, padMode]

/-- `cmd_ready` is a function of the command in flight and the host's list. -/
theorem cmdReady_congr {s s' : State} (inFlight : s.inFlight = s'.inFlight) (host : s.host = s'.host) :
    s.cmdReady = s'.cmdReady := by
  simp only [State.cmdReady, State.busy, State.input, inFlight, host]

theorem digestPort_of_not_valid {s : State} (h : s.digestValid = false) : s.digestPort = none := by
  simp [State.digestPort, h]

/-- The digest is a function of lanes 0..3. -/
theorem digestOf_congr {A B : Lanes} (h : ∀ i : Fin 4, A[i.val] = B[i.val]) : digestOf A = digestOf B := by
  have h0 : A[0] = B[0] := h 0
  have h1 : A[1] = B[1] := h 1
  have h2 : A[2] = B[2] := h 2
  have h3 : A[3] = B[3] := h 3
  simp only [digestOf, h0, h1, h2, h3]

/-- The digest port is a function of PHASE, the command in flight and lanes 0..3. -/
theorem digestPort_congr {s s' : State} (phase : s.phase = s'.phase) (inFlight : s.inFlight = s'.inFlight)
    (lanes : ∀ i : Fin 4, s.lanes[i.val] = s'.lanes[i.val]) : s.digestPort = s'.digestPort := by
  simp only [State.digestPort, digestValid_congr phase inFlight, digestOf_congr lanes]

/-- Settles O40: the ports are functions of what the two states share. -/
theorem hiddenStateIsNotShown : Obligations.HiddenStateIsNotShown := by
  intro s s' phase faultCode padMode inFlight freeCount host
  refine ⟨status_congr phase faultCode padMode inFlight freeCount, cmdReady_congr inFlight host, fun hv => ?_,
    digestPort_congr phase inFlight⟩
  rw [digestPort_of_not_valid hv, digestPort_of_not_valid (digestValid_congr phase inFlight ▸ hv)]

end Sys2Proof.Machine
end

section
/-! SUPPORT. What the commands do not read: PAD_MODE but for FINALIZE, PERM_COUNT and ROUND (10_state.md R29, R31, R35). -/

namespace Sys2Proof.Machine

/-- A relation between states on which the phase check decides alike is kept by absorbing a byte, if buffering it,
filling a lane and filling the block keep it. -/
theorem absorbByte_simulates {R : State → State → Prop} (v : Byte) {s s' : State} (same : SameChecks s s')
    (buffer : R
      { s with pending := s.pending ||| placeByte v s.byteIndex.toNat, byteIndex := s.byteIndex + 1 }
      { s' with pending := s'.pending ||| placeByte v s'.byteIndex.toNat, byteIndex := s'.byteIndex + 1 })
    (fillLane : R
      { s with
        lanes := xorLane s.lanes s.laneIndex.toNat (s.pending ||| placeByte v 7)
        pending := 0, byteIndex := 0, laneIndex := s.laneIndex + 1 }
      { s' with
        lanes := xorLane s'.lanes s'.laneIndex.toNat (s'.pending ||| placeByte v 7)
        pending := 0, byteIndex := 0, laneIndex := s'.laneIndex + 1 })
    (fillBlock : R
      { s with
        lanes := keccakF (xorLane s.lanes 16 (s.pending ||| placeByte v 7))
        pending := 0, byteIndex := 0, laneIndex := 0, round := 23, permCount := s.permCount + 1 }
      { s' with
        lanes := keccakF (xorLane s'.lanes 16 (s'.pending ||| placeByte v 7))
        pending := 0, byteIndex := 0, laneIndex := 0, round := 23, permCount := s'.permCount + 1 }) :
    R (absorbByte v s) (absorbByte v s') := by
  obtain ⟨-, byteIndex, laneIndex⟩ := same
  by_cases h7 : s.byteIndex = 7
  · by_cases h16 : s.laneIndex = 16
    · rw [absorbByte_fillBlock v s h7 h16, absorbByte_fillBlock v s' (byteIndex.trans h7) (laneIndex.trans h16)]
      exact fillBlock
    · rw [absorbByte_fillLane v s h7 h16, absorbByte_fillLane v s' (byteIndex.trans h7) (laneIndex ▸ h16)]
      exact fillLane
  · rw [absorbByte_buffer v s h7, absorbByte_buffer v s' (byteIndex ▸ h7)]
    exact buffer

/-- A relation that absorbing a byte keeps is kept by absorbing a byte string. -/
theorem absorbBytes_simulates {R : State → State → Prop}
    (byte : ∀ v s s', R s s' → R (absorbByte v s) (absorbByte v s')) (bytes : List Byte) {s s' : State}
    (hs : R s s') : R (absorbBytes bytes s) (absorbBytes bytes s') := by
  induction bytes generalizing s s' with
  | nil => exact hs
  | cons v rest ih => exact ih (byte v s s' hs)

/-- `s'` is `s` with `m` for PAD_MODE. -/
def PadModeSet (m : PadMode) (s s' : State) : Prop := s' = { s with padMode := m }

theorem absorbByte_padModeSet (m : PadMode) (v : Byte) (s s' : State) (h : PadModeSet m s s') :
    PadModeSet m (absorbByte v s) (absorbByte v s') := by
  subst h
  exact absorbByte_simulates v ⟨rfl, rfl, rfl⟩ rfl rfl rfl

/-- No command but FINALIZE reads PAD_MODE as it takes effect. -/
theorem commandBody_padModeSet {i : Instr} (hi : i ≠ .finalize) (m : PadMode) (s s' : State)
    (h : PadModeSet m s s') : PadModeSet m (commandBody i s) (commandBody i s') := by
  cases i with
  | init => cases h; rfl
  | updateByte v => exact absorbByte_padModeSet m v s s' h
  | updateU32le w => exact absorbBytes_simulates (absorbByte_padModeSet m) (wordBytes w) h
  | finalize => contradiction

/-- A command word leaves PAD_MODE. -/
theorem runWord_padMode {w : CmdWord} {s t : State} (h : runWord w s = .next t) : t.padMode = s.padMode := by
  obtain ⟨-, rfl⟩ | ⟨-, -, rfl⟩ | ⟨-, i, -, hi⟩ := runWord_cases h
  · rfl
  · exact raiseFault_padMode _ s
  · exact (exec_frame hi).1

/-- A clock edge leaves PAD_MODE, reset included. -/
theorem clockEdge_padMode {inp : PortInput} {s t : State} (h : clockEdge inp s = .next t) :
    t.padMode = s.padMode := by
  obtain ⟨-, rfl⟩ | ⟨-, c, -, -, hw⟩ | ⟨-, c, -, -, rfl⟩ | ⟨-, -, -, rfl⟩ | ⟨-, -, -, rfl⟩ := clockEdge_cases h
  · exact applyReset_padMode s
  · exact (runWord_padMode hw).trans (retire_padMode s)
  · exact countDown_padMode c s
  · exact acceptWord_padMode _ s
  · rfl

/-- Settles O41: no edge writes PAD_MODE, and a command other than FINALIZE keeps the relation "the same but for
PAD_MODE". -/
theorem padModeIsFixedAndReadByFinalizeOnly : Obligations.PadModeIsFixedAndReadByFinalizeOnly := by
  refine ⟨rfl, rfl, rfl, fun s t h => clockEdge_padMode (s := passEdge s) h, fun i s t m hi h => ?_⟩
  obtain ⟨t', ht', rfl⟩ := exec_simulates (R := PadModeSet m)
    (by rintro s _ rfl; exact ⟨rfl, rfl, rfl⟩) (by rintro code s _ rfl; rfl) (commandBody_padModeSet hi m) rfl h
  exact ht'

/-- `s'` is `s` but for PERM_COUNT and ROUND. -/
def SameButCounters (s s' : State) : Prop := s' = { s with permCount := s'.permCount, round := s'.round }

theorem absorbByte_sameButCounters (v : Byte) (s s' : State) (h : SameButCounters s s') :
    SameButCounters (absorbByte v s) (absorbByte v s') := by
  rw [h]
  exact absorbByte_simulates v ⟨rfl, rfl, rfl⟩ rfl rfl rfl

/-- FINALIZE pads and permutes without reading the counters. -/
theorem finishHash_sameButCounters (s s' : State) (h : SameButCounters s s') :
    SameButCounters (finishHash s) (finishHash s') := by
  rw [h, finishHash_eq, finishHash_eq]
  rfl

/-- No command reads the counters as it takes effect. -/
theorem commandBody_sameButCounters (i : Instr) (s s' : State) (h : SameButCounters s s') :
    SameButCounters (commandBody i s) (commandBody i s') := by
  cases i with
  | init => rw [h]; rfl
  | updateByte v => exact absorbByte_sameButCounters v s s' h
  | updateU32le w => exact absorbBytes_simulates absorbByte_sameButCounters (wordBytes w) h
  | finalize => exact finishHash_sameButCounters s s' h

/-- Settles O42: the ports do not show the counters, and every command keeps the relation "the same but for the
counters". -/
theorem countersAreNotRead : Obligations.CountersAreNotRead := by
  refine ⟨fun s hp => ⟨_, exec_init_runs hp, startHash_permCount s⟩, permute_permCount, fun i s t n r h => ?_⟩
  refine ⟨status_congr rfl rfl rfl rfl rfl, digestPort_congr rfl rfl fun _ => rfl, cmdReady_congr rfl rfl, ?_⟩
  exact exec_simulates (R := SameButCounters)
    (by rintro s s' hs; rw [hs]; exact ⟨rfl, rfl, rfl⟩) (by rintro code s s' hs; rw [hs]; rfl)
    (commandBody_sameButCounters i) rfl h

end Sys2Proof.Machine
end

section
/-! SUPPORT. Which lanes an update writes when it does not permute, and the frame of every command (10_state.md R21, R32,
42_absorption.md R150, 43_finalization.md R174). -/

namespace Sys2Proof.Machine

/-- Absorbing a byte never counts permutations back. -/
theorem permCount_le_absorbByte (v : Byte) (s : State) : s.permCount ≤ (absorbByte v s).permCount := by
  by_cases h7 : s.byteIndex = 7
  · by_cases h16 : s.laneIndex = 16
    · rw [absorbByte_fillBlock v s h7 h16]
      exact Nat.le_succ _
    · rw [absorbByte_fillLane v s h7 h16]
  · rw [absorbByte_buffer v s h7]

/-- Absorbing a byte string never counts permutations back. -/
theorem permCount_le_absorbBytes (bytes : List Byte) (s : State) : s.permCount ≤ (absorbBytes bytes s).permCount := by
  induction bytes generalizing s with
  | nil => exact Nat.le_refl _
  | cons v rest ih => exact Nat.le_trans (permCount_le_absorbByte v s) (ih _)

/-- Bytes that do not fill the lane are buffered, so no lane and no ROUND is written. -/
theorem absorbBytes_buffer (bytes : List Byte) {s : State} (hlen : s.byteIndex.toNat + bytes.length ≤ 7) :
    (absorbBytes bytes s).lanes = s.lanes ∧ (absorbBytes bytes s).round = s.round := by
  induction bytes generalizing s with
  | nil => exact ⟨rfl, rfl⟩
  | cons v rest ih =>
    rw [List.length_cons] at hlen
    have room : s.byteIndex ≠ 7 := by bv_omega
    rw [absorbBytes_cons, absorbByte_buffer v s room]
    exact ih (show (s.byteIndex + 1).toNat + rest.length ≤ 7 by bv_omega)

/-- Up to eight bytes that run no permutation fill one lane at most, `A[LANE_INDEX]`, and leave ROUND. -/
theorem absorbBytes_lanes_of_permCount (bytes : List Byte) {s : State} (hb : s.byteIndex.toNat ≤ 7)
    (hlen : bytes.length ≤ 8) (hn : (absorbBytes bytes s).permCount = s.permCount) :
    (absorbBytes bytes s).round = s.round ∧
    ∀ j : Fin 25, j.val ≠ s.laneIndex.toNat → (absorbBytes bytes s).lanes[j] = s.lanes[j] := by
  induction bytes generalizing s with
  | nil => exact ⟨rfl, fun _ _ => rfl⟩
  | cons v rest ih =>
    rw [List.length_cons] at hlen
    rw [absorbBytes_cons] at hn ⊢
    by_cases h7 : s.byteIndex = 7
    · by_cases h16 : s.laneIndex = 16
      · -- the block would be permuted, and no later byte counts it back
        have counted := permCount_le_absorbBytes rest (absorbByte v s)
        rw [hn, absorbByte_fillBlock v s h7 h16] at counted
        exact absurd counted (Nat.not_succ_le_self _)
      · rw [absorbByte_fillLane v s h7 h16]
        obtain ⟨lanes, round⟩ := absorbBytes_buffer rest (s := { s with
          lanes := xorLane s.lanes s.laneIndex.toNat (s.pending ||| placeByte v 7)
          pending := 0, byteIndex := 0, laneIndex := s.laneIndex + 1 })
          (show 0 + rest.length ≤ 7 by omega)
        refine ⟨round, fun j hj => ?_⟩
        rw [lanes]
        simp [hj]
    · rw [absorbByte_buffer v s h7] at hn ⊢
      exact ih (show (s.byteIndex + 1).toNat ≤ 7 by bv_omega) (Nat.le_of_succ_le hlen) hn

/-- A command absorbs at most four bytes. -/
theorem bytesOf_length_le (i : Instr) : (bytesOf i).length ≤ 4 := by
  cases i <;> simp [bytesOf, wordBytes]

/-- An update that runs no permutation leaves ROUND and every lane but `A[LANE_INDEX]`. -/
theorem exec_update_lanes {i : Instr} {s t : State} (h : exec i s = .next t) (hp : s.phase = .absorbing)
    (hi : isUpdate i = true) (hn : t.permCount = s.permCount) :
    t.round = s.round ∧ ∀ j : Fin 25, j.val ≠ s.laneIndex.toNat → t.lanes[j] = s.lanes[j] := by
  obtain ⟨rfl, hr⟩ := exec_update_cases hp hi h
  exact absorbBytes_lanes_of_permCount (bytesOf i) hr.1 (Nat.le_trans (bytesOf_length_le i) (by decide)) hn

/-- In UNINIT and FINALIZED a command other than INIT writes the fault alone. -/
theorem exec_misuse_frame {i : Instr} {s t : State} (h : exec i s = .next t) (hi : i ≠ .init)
    (hp : s.phase = .uninit ∨ s.phase = .finalized) : t = { s with faultCode := t.faultCode, phase := .faulted } := by
  rcases hp with hp | hp
  · cases (exec_uninit hi hp).symm.trans h
    rfl
  · cases (exec_finalized hi hp).symm.trans h
    rfl

/-- INIT leaves FAULT_CODE and ROUND, whether it starts a hash or is ignored. -/
theorem exec_init_frame {s t : State} (h : exec .init s = .next t) :
    t.faultCode = s.faultCode ∧ t.round = s.round := by
  obtain ⟨-, rfl⟩ | ⟨-, rfl⟩ := execInit_cases h
  · exact ⟨rfl, rfl⟩
  · exact ⟨startHash_faultCode s, startHash_round s⟩

/-- Settles O19: clause by clause, from what the command writes in each phase. -/
theorem commandFrames : Obligations.CommandFrames := by
  intro i s t h
  obtain ⟨padMode, host, freeCount⟩ := exec_frame h
  refine ⟨padMode, exec_inFlight h, host, freeCount, fun hp => ?_, exec_misuse_frame h, fun hi => ?_, fun hp => ?_,
    fun hp hi => ?_, exec_update_lanes h, fun hp hi => ?_⟩
  · cases (exec_faulted i hp).symm.trans h
    rfl
  · subst hi
    exact exec_init_frame h
  · obtain ⟨rfl, -⟩ := exec_absorbing_cases hp h
    exact (commandBody_frame i s).1
  · obtain ⟨rfl, -⟩ := exec_update_cases hp hi h
    exact absorbBytes_phase _ s
  · obtain ⟨rfl, -⟩ := exec_absorbing_cases hp h
    subst hi
    rw [show commandBody .finalize s = finishHash s from rfl, finishHash_eq]

/-- A command other than INIT that runs no permutation leaves the capacity lanes: it faults, is ignored, or is an update,
whose one lane is a rate lane. -/
theorem exec_capacity {i : Instr} {s t : State} (h : exec i s = .next t) (hi : i ≠ .init)
    (hn : t.permCount = s.permCount) (j : Fin 25) (hj : 17 ≤ j.val) : t.lanes[j] = s.lanes[j] := by
  obtain ⟨-, rfl⟩ | ⟨-, -, rfl⟩ | ⟨-, -, rfl⟩ | ⟨⟨rfl, -⟩ | ⟨hp, hr⟩, rfl⟩ := exec_cases_body h
  · rfl
  · rfl
  · rfl
  · contradiction
  · have rate : j.val ≠ s.laneIndex.toNat := by
      have := hr.2
      omega
    cases i with
    | init => contradiction
    | updateByte v => exact (exec_update_lanes h hp rfl hn).2 j rate
    | updateU32le w => exact (exec_update_lanes h hp rfl hn).2 j rate
    | finalize => exact absurd ((finishHash_permCount s).symm.trans hn) (Nat.succ_ne_self _)

/-- A command word other than INIT's that runs no permutation leaves the capacity lanes. -/
theorem runWord_capacity {w : CmdWord} {s t : State} (h : runWord w s = .next t) (hw : decode w ≠ .command .init)
    (hn : t.permCount = s.permCount) (j : Fin 25) (hj : 17 ≤ j.val) : t.lanes[j] = s.lanes[j] := by
  obtain ⟨-, rfl⟩ | ⟨-, -, rfl⟩ | ⟨-, i, hd, hi⟩ := runWord_cases h
  · rfl
  · rfl
  · exact exec_capacity hi (by rintro rfl; exact hw hd) hn j hj

/-- A clock edge without reset, with no INIT in flight and no permutation, leaves the capacity lanes. -/
theorem clockEdge_capacity {inp : PortInput} {s t : State} (h : clockEdge inp s = .next t) (hr : inp.rst = false)
    (hn : t.permCount = s.permCount) (hw : ∀ c, s.inFlight = some c → decode c.word ≠ .command .init) (j : Fin 25)
    (hj : 17 ≤ j.val) : t.lanes[j] = s.lanes[j] := by
  obtain ⟨hrst, -⟩ | ⟨-, c, hc, -, hrun⟩ | ⟨-, c, -, -, rfl⟩ | ⟨-, -, -, rfl⟩ | ⟨-, -, -, rfl⟩ := clockEdge_cases h
  · cases hr.symm.trans hrst
  · exact runWord_capacity hrun (hw c hc) hn j hj
  · rfl
  · rfl
  · rfl

/-- Settles O43: an edge writes lanes only by the completing command, and the ports read lanes 0..3 alone. -/
theorem capacityLanesChangeOnlyByPermutation : Obligations.CapacityLanesChangeOnlyByPermutation := by
  refine ⟨fun i s t h hi hn => exec_capacity h hi hn, fun s t h hr hn hw => ?_, fun s A hA => ?_⟩
  · exact clockEdge_capacity (s := passEdge s) h hr hn hw
  · exact ⟨status_congr rfl rfl rfl rfl rfl,
      digestPort_congr rfl rfl fun i => hA ⟨i.val, by omega⟩ (by simp only; omega)⟩

end Sys2Proof.Machine
end

section
/-! SUPPORT. What the bookkeeping registers hold after a message (10_state.md R22, R36, 42_absorption.md R152-R154). -/

namespace Sys2Proof.Machine

/-- The bytes of a combined lane are the bytes combined. -/
theorem laneByte_or (x y : Lane) (k : Nat) : laneByte (x ||| y) k = laneByte x k ||| laneByte y k := by
  ext j hj
  simp [laneByte]

/-- A placed byte stands at its own place, and the other bytes of the lane are 0. -/
theorem laneByte_placeByte (v : Byte) {k n : Nat} (hk : k < 8) :
    laneByte (placeByte v n) k = if k = n then v else 0#8 := by
  ext j hj
  have bit : (laneByte (placeByte v n) k)[j] = (!decide (8 * k + j < 8 * n) && v.getLsbD (8 * k + j - 8 * n)) := by
    simp [laneByte, placeByte, show 8 * k + j < 64 by omega]
  rw [bit]
  obtain hlt | rfl | hgt := Nat.lt_trichotomy k n
  · simp [show 8 * k + j < 8 * n by omega, hlt.ne]
  · simp [BitVec.getLsbD_eq_getElem hj]
  · simp [hgt.ne', BitVec.getLsbD_of_ge v (8 * k + j - 8 * n) (by omega)]

/-- Above the buffered bytes `PENDING` is 0. -/
theorem laneByte_of_lt {p : Lane} {k : Nat} (hp : p.toNat < 2 ^ (8 * k)) : laneByte p k = 0#8 := by
  apply BitVec.eq_of_toNat_eq
  simp [laneByte, Nat.shiftRight_eq_div_pow, Nat.div_eq_of_lt hp]

/-- The registers of a hash that has absorbed `msg`. -/
structure Bookkeeps (msg : List Byte) (s : State) : Prop where
  buffered : Buffered s
  byteIndex : s.byteIndex.toNat = msg.length % 8
  laneIndex : s.laneIndex.toNat = msg.length / 8 % 17
  permCount : s.permCount = msg.length / 136
  pending : ∀ k < msg.length % 8, laneByte s.pending k = msg.getD (msg.length / 8 * 8 + k) 0

/-- INIT starts with no message. -/
theorem startHash_bookkeeps (s : State) : Bookkeeps [] (startHash s) where
  buffered := startHash_buffered s
  byteIndex := rfl
  laneIndex := rfl
  permCount := rfl
  pending := fun k hk => absurd hk (Nat.not_lt_zero k)

/-- One more buffered byte is the last byte of the longer message; the others stay. -/
theorem laneByte_pending_or_placeByte {msg : List Byte} {p : Lane} (hp : p.toNat < 2 ^ (8 * (msg.length % 8)))
    (bytes : ∀ k < msg.length % 8, laneByte p k = msg.getD (msg.length / 8 * 8 + k) 0) (v : Byte) {k : Nat}
    (hk : k ≤ msg.length % 8) :
    laneByte (p ||| placeByte v (msg.length % 8)) k = (msg ++ [v]).getD (msg.length / 8 * 8 + k) 0 := by
  rw [laneByte_or, laneByte_placeByte v (by omega)]
  obtain hlt | rfl : k < msg.length % 8 ∨ k = msg.length % 8 := by omega
  · have old : msg.length / 8 * 8 + k < msg.length := by omega
    rw [if_neg (by omega), BitVec.or_zero, bytes k hlt, List.getD_append _ _ _ _ old]
  · have last : msg.length / 8 * 8 + msg.length % 8 = msg.length := by omega
    rw [if_pos rfl, laneByte_of_lt hp, BitVec.zero_or, last]
    simp

/-- Absorbing a byte appends it to the message. -/
theorem absorbByte_bookkeeps {msg : List Byte} {s : State} (hs : Bookkeeps msg s) (v : Byte) :
    Bookkeeps (msg ++ [v]) (absorbByte v s) := by
  obtain ⟨buffered, byteIndex, laneIndex, permCount, pending⟩ := hs
  have kept : Buffered (absorbByte v s) := absorbByte_buffered v buffered
  have len : (msg ++ [v]).length = msg.length + 1 := by simp
  by_cases h7 : s.byteIndex = 7
  · have full : msg.length % 8 = 7 := by rw [← byteIndex, h7]; rfl
    by_cases h16 : s.laneIndex = 16
    · have block : msg.length / 8 % 17 = 16 := by rw [← laneIndex, h16]; rfl
      rw [absorbByte_fillBlock v s h7 h16] at kept ⊢
      refine ⟨kept, ?_, ?_, ?_, ?_⟩ <;> simp only [len]
      · show 0 = (msg.length + 1) % 8
        omega
      · show 0 = (msg.length + 1) / 8 % 17
        omega
      · omega
      · omega
    · have lane : msg.length / 8 % 17 ≠ 16 := by rw [← laneIndex]; bv_omega
      have next : (s.laneIndex + 1).toNat = s.laneIndex.toNat + 1 := by bv_omega
      rw [absorbByte_fillLane v s h7 h16] at kept ⊢
      refine ⟨kept, ?_, ?_, ?_, ?_⟩ <;> simp only [len]
      · show 0 = (msg.length + 1) % 8
        omega
      · omega
      · omega
      · omega
  · have room : msg.length % 8 ≠ 7 := by rw [← byteIndex]; bv_omega
    have next : (s.byteIndex + 1).toNat = s.byteIndex.toNat + 1 := by bv_omega
    have same : (msg.length + 1) / 8 = msg.length / 8 := by omega
    rw [absorbByte_buffer v s h7] at kept ⊢
    refine ⟨kept, ?_, ?_, ?_, ?_⟩ <;> simp only [len, same]
    · omega
    · omega
    · omega
    · intro k hk
      rw [byteIndex]
      exact laneByte_pending_or_placeByte (byteIndex ▸ buffered.2) pending v (by omega)

/-- Absorbing a byte string appends it to the message. -/
theorem absorbBytes_bookkeeps {msg : List Byte} {s : State} (hs : Bookkeeps msg s) (bytes : List Byte) :
    Bookkeeps (msg ++ bytes) (absorbBytes bytes s) := by
  induction bytes generalizing msg s with
  | nil => rwa [List.append_nil, absorbBytes_nil]
  | cons v rest ih =>
    rw [absorbBytes_cons, List.append_cons]
    exact ih (absorbByte_bookkeeps hs v)

/-- A sequence of updates in ABSORBING absorbs its message as one byte string. -/
theorem execAll_updates {ups : List Instr} (hups : ∀ i ∈ ups, isUpdate i = true) {s : State}
    (hp : s.phase = .absorbing) (hr : InRange s) : execAll ups s = .next (absorbBytes (messageOf ups) s) := by
  induction ups generalizing s with
  | nil => rfl
  | cons i rest ih =>
    obtain ⟨hi, hrest⟩ := List.forall_mem_cons.1 hups
    have first : exec i s = .next (absorbBytes (bytesOf i) s) := by
      rw [exec_absorbing i hp hr, commandBody_of_isUpdate hi]
    have tail := ih hrest (s := absorbBytes (bytesOf i) s) (by simpa using hp) (absorbBytes_inRange _ hr)
    simp only [execAll, first, tail, messageOf, List.flatMap_cons, absorbBytes_append]

/-- INIT and updates absorb the message from the cleared registers. -/
theorem execAll_init_updates {ups : List Instr} (hups : ∀ i ∈ ups, isUpdate i = true) {s : State}
    (hp : s.phase ≠ .faulted) :
    execAll (.init :: ups) s = .next (absorbBytes (messageOf ups) (startHash s)) := by
  simp only [execAll, exec_init_runs hp]
  exact execAll_updates hups (startHash_phase s) (startHash_buffered s).1

/-- Settles O45: INIT and the updates absorb the message byte by byte, and each byte keeps the bookkeeping. -/
theorem bookkeepingCountsTheMessage : Obligations.BookkeepingCountsTheMessage := by
  intro s ups hp hups
  obtain ⟨buffered, byteIndex, laneIndex, permCount, pending⟩ :=
    absorbBytes_bookkeeps (startHash_bookkeeps s) (messageOf ups)
  exact ⟨_, execAll_init_updates hups hp, absorbBytes_phase _ _, byteIndex, laneIndex, permCount,
    byteIndex ▸ buffered.2, pending⟩

end Sys2Proof.Machine
end

section
/-! SUPPORT. Which lane byte each digest byte is (20_memory.md R54, 43_finalization.md R172). -/

namespace Sys2Proof.Machine

/-- The digest's 64-bit words are lanes 0..3, lane 0 lowest. -/
theorem digestOf_lane (A : Lanes) (q : Fin 4) : (digestOf A).extractLsb' (64 * q.val) 64 = A[q.val] := by
  ext j hj
  rw [BitVec.getElem_extractLsb', digestOf_getLsbD, ← BitVec.getLsbD_eq_getElem hj]
  match q with
  | 0 => simp [hj]
  | 1 => simp [show 64 + j < 128 by omega]
  | 2 => simp [show ¬ 128 + j < 64 by omega, show 128 + j < 192 by omega]
  | 3 => simp [show ¬ 192 + j < 64 by omega, show ¬ 192 + j < 128 by omega]

/-- Digest byte `k` is byte `k mod 8` of lane `k div 8`. -/
theorem digestOf_byte (A : Lanes) (k : Fin 32) :
    (digestOf A).extractLsb' (8 * k.val) 8 = laneByte A[k.val / 8] (k.val % 8) := by
  have lane := digestOf_lane A ⟨k.val / 8, by omega⟩
  rw [← lane]
  ext j hj
  have place : 64 * (k.val / 8) + (8 * (k.val % 8) + j) = 8 * k.val + j := by omega
  simp [laneByte, place, show 8 * (k.val % 8) + j < 64 by omega]

theorem digestPort_of_valid {s : State} (h : s.digestValid = true) : s.digestPort = some (digestOf s.lanes) := by
  simp only [State.digestPort, h, if_true]

/-- Settles O38: the port shows the value of lanes 0..3, and each of its bytes is a byte of one lane. -/
theorem digestBytesAreLittleEndian : Obligations.DigestBytesAreLittleEndian := by
  intro s valid
  refine ⟨digestOf s.lanes, digestPort_of_valid valid, by simp [digestByteList], fun k => ?_⟩
  have lane : s.lanes[k.val / 8]?.getD 0 = s.lanes[k.val / 8] := by simp [show k.val / 8 < 25 by omega]
  rw [lane, ← laneByte, ← digestOf_byte s.lanes k]
  simp [digestByteList]

end Sys2Proof.Machine
end

section
/-! SUPPORT. The lanes of a padded message, byte by byte (20_memory.md R52, 43_finalization.md R170, R171). -/

namespace Sys2Proof.Machine

/-- A lane is its eight bytes. -/
theorem lane_eq_of_laneByte_eq {x y : Lane} (h : ∀ k < 8, laneByte x k = laneByte y k) : x = y := by
  ext i hi
  have bit (v : Lane) : (laneByte v (i / 8)).getLsbD (i % 8) = v[i] := by
    simp [laneByte, Nat.mod_lt i, Nat.div_add_mod, BitVec.getLsbD_eq_getElem hi]
  rw [← bit x, h (i / 8) (by omega), bit y]

theorem laneByte_xor (x y : Lane) (k : Nat) : laneByte (x ^^^ y) k = laneByte x k ^^^ laneByte y k := by
  ext j hj
  simp [laneByte]

@[simp] theorem laneByte_zero (k : Nat) : laneByte 0#64 k = 0#8 := by simp [laneByte]

/-- Bytes placed one above another in an empty lane stand each at its own place. -/
theorem laneByte_foldl_placeByte (f : Nat → Byte) (n : Nat) {k : Nat} (hk : k < 8) :
    laneByte ((List.range n).foldl (fun acc i => acc ||| placeByte (f i) i) 0) k = if k < n then f k else 0 := by
  induction n with
  | zero => simp
  | succ n ih =>
    rw [List.range_succ, List.foldl_append, List.foldl_cons, List.foldl_nil, laneByte_or, ih, laneByte_placeByte _ hk]
    obtain hlt | rfl | hgt := Nat.lt_trichotomy k n
    · simp [hlt, hlt.ne, show k < n + 1 by omega]
    · simp
    · simp [hgt.ne', show ¬ k < n by omega, show ¬ k < n + 1 by omega]

/-- Byte `k` of lane `l` of block `b` is byte `136 * b + 8 * l + k` of the string (20_memory.md R52). -/
theorem laneByte_blockLane (p : List Byte) (b l : Nat) {k : Nat} (hk : k < 8) :
    laneByte (Reference.blockLane p b l) k = p.getD (136 * b + 8 * l + k) 0 := by
  rw [Reference.blockLane, laneByte_foldl_placeByte _ 8 hk, if_pos hk]

/-- The message with its padding. -/
def padded (mode : PadMode) (msg : List Byte) : List Byte := msg ++ Reference.padBytes mode msg.length

/-- The padding with the block's 136 bytes written out. -/
theorem padBytes_eq (mode : PadMode) (m : Nat) :
    Reference.padBytes mode m =
      if 136 - m % 136 = 1 then [suffixByte mode ^^^ 0x80]
      else suffixByte mode :: (List.replicate (136 - m % 136 - 2) 0 ++ [0x80]) := rfl

theorem padBytes_length (mode : PadMode) (m : Nat) : (Reference.padBytes mode m).length = 136 - m % 136 := by
  rw [padBytes_eq]
  split
  next h => simp [h]
  next h =>
    simp only [List.length_cons, List.length_append, List.length_replicate, List.length_nil]
    omega

/-- Padding completes the block the message ends in. -/
theorem padded_length (mode : PadMode) (msg : List Byte) :
    (padded mode msg).length = 136 * (msg.length / 136 + 1) := by
  rw [padded, List.length_append, padBytes_length]
  omega

/-- The padding is the suffix byte first and the pad's last bit in its last byte, which may be the same one. -/
theorem padBytes_getD (mode : PadMode) (m : Nat) {i : Nat} (hi : i < 136 - m % 136) :
    (Reference.padBytes mode m).getD i 0 =
      (if i = 0 then suffixByte mode else 0) ^^^ (if i = 135 - m % 136 then 0x80 else 0) := by
  rw [padBytes_eq]
  split
  next h =>
    obtain rfl : i = 0 := by omega
    simp [show 135 - m % 136 = 0 by omega]
  next h =>
    cases i with
    | zero => simp [show 0 ≠ 135 - m % 136 by omega]
    | succ i =>
      obtain hlt | heq : i < 136 - m % 136 - 2 ∨ i = 136 - m % 136 - 2 := by omega
      · rw [List.getD_cons_succ, List.getD_append _ _ _ _ (by simpa using hlt)]
        simp [show i + 1 ≠ 135 - m % 136 by omega, hlt]
      · rw [List.getD_cons_succ, List.getD_append_right _ _ _ _ (by simp [heq])]
        simp [heq, show 136 - m % 136 - 2 + 1 = 135 - m % 136 by omega, show 135 - m % 136 ≠ 0 by omega]

/-- A byte of the padded message: the message, the suffix right after it, and the pad's last bit, by XOR. -/
theorem padded_getD (mode : PadMode) (msg : List Byte) {i : Nat} (hi : i < 136 * (msg.length / 136 + 1)) :
    (padded mode msg).getD i 0 =
      msg.getD i 0 ^^^ (if i = msg.length then suffixByte mode else 0) ^^^
        (if i = 136 * (msg.length / 136) + 135 then 0x80 else 0) := by
  by_cases h : i < msg.length
  · rw [padded, List.getD_append _ _ _ _ h, if_neg h.ne, if_neg (by omega)]
    simp
  · have start : i - msg.length = 0 ↔ i = msg.length := by omega
    have last : i - msg.length = 135 - msg.length % 136 ↔ i = 136 * (msg.length / 136) + 135 := by omega
    rw [padded, List.getD_append_right _ _ _ _ (by omega), padBytes_getD mode _ (by omega),
      List.getD_eq_default msg 0 (by omega)]
    simp [start, last]

end Sys2Proof.Machine
end

section
/-! SUPPORT. The machine's lanes against the sponge of the padded message (42_absorption.md R150, R154, 43_finalization.md
R170-R173). -/

namespace Sys2Proof.Machine

/-- The lanes after the first `b` blocks of a byte string. -/
def blocksAbsorbed (p : List Byte) (b : Nat) : Lanes :=
  (List.range b).foldl (Reference.absorbBlock p) (Vector.replicate 25 0)

/-- The lanes in block `b` with its first `l` lanes XORed in. -/
def lanesFilled (p : List Byte) (b l : Nat) : Lanes :=
  Vector.ofFn fun j : Fin 25 =>
    if j.val < l then (blocksAbsorbed p b)[j] ^^^ Reference.blockLane p b j.val else (blocksAbsorbed p b)[j]

theorem lanesFilled_getElem (p : List Byte) (b l : Nat) {j : Nat} (hj : j < 25) :
    (lanesFilled p b l)[j] =
      if j < l then (blocksAbsorbed p b)[j] ^^^ Reference.blockLane p b j else (blocksAbsorbed p b)[j] := by
  simp [lanesFilled]

@[simp] theorem lanesFilled_zero (p : List Byte) (b : Nat) : lanesFilled p b 0 = blocksAbsorbed p b := by
  ext1 j hj
  simp [lanesFilled_getElem]

/-- One more lane of the block. -/
theorem lanesFilled_succ (p : List Byte) (b l : Nat) :
    lanesFilled p b (l + 1) = xorLane (lanesFilled p b l) l (Reference.blockLane p b l) := by
  ext1 j hj
  rw [xorLane_getElem, lanesFilled_getElem _ _ _ hj, lanesFilled_getElem _ _ _ hj]
  obtain hlt | rfl | hgt := Nat.lt_trichotomy j l
  · simp [hlt, hlt.ne, show j < l + 1 by omega]
  · simp
  · simp [hgt.ne', show ¬ j < l by omega, show ¬ j < l + 1 by omega]

/-- A full block is permuted. -/
theorem blocksAbsorbed_succ (p : List Byte) (b : Nat) :
    blocksAbsorbed p (b + 1) = keccakF (lanesFilled p b 17) := by
  rw [blocksAbsorbed, List.range_succ, List.foldl_append]
  rfl

theorem spongeLanes_eq_blocksAbsorbed (mode : PadMode) (msg : List Byte) :
    Reference.spongeLanes mode msg = blocksAbsorbed (padded mode msg) (msg.length / 136 + 1) := by
  have blocks : (padded mode msg).length / 136 = msg.length / 136 + 1 := by rw [padded_length]; omega
  rw [← blocks]
  rfl

/-- The registers of a hash that has absorbed the part `msg` of a byte string `p`. -/
structure Sponges (p msg : List Byte) (s : State) : Prop where
  bookkeeps : Bookkeeps msg s
  lanes : s.lanes = lanesFilled p (msg.length / 136) (msg.length / 8 % 17)

theorem startHash_sponges (p : List Byte) (s : State) : Sponges p [] (startHash s) where
  bookkeeps := startHash_bookkeeps s
  lanes := by simp [blocksAbsorbed]

/-- `PENDING` is the message from the unfinished lane on. -/
theorem Bookkeeps.laneByte_pending {msg : List Byte} {s : State} (hs : Bookkeeps msg s) (k : Nat) :
    laneByte s.pending k = msg.getD (msg.length / 8 * 8 + k) 0 := by
  by_cases hk : k < msg.length % 8
  · exact hs.pending k hk
  · have bound : s.pending.toNat < 2 ^ (8 * k) :=
      Nat.lt_of_lt_of_le hs.buffered.2 (Nat.pow_le_pow_right (by decide) (by rw [hs.byteIndex]; omega))
    rw [laneByte_of_lt bound, List.getD_eq_default _ _ (by omega)]
    rfl

/-- Byte `n` stands at block `n div 136`, lane `(n div 8) mod 17` (20_memory.md R52). -/
theorem lane_start (n : Nat) : 136 * (n / 136) + 8 * (n / 8 % 17) = n / 8 * 8 := by omega

/-- The buffered bytes and the one that fills the lane are that lane of the string. -/
theorem pending_or_placeByte_eq_blockLane {p msg : List Byte} {v : Byte} {s : State} (hs : Bookkeeps msg s)
    (hp : msg ++ [v] <+: p) (full : msg.length % 8 = 7) :
    s.pending ||| placeByte v 7 = Reference.blockLane p (msg.length / 136) (msg.length / 8 % 17) := by
  apply lane_eq_of_laneByte_eq
  intro k hk
  obtain ⟨rest, rfl⟩ := hp
  have bound : s.pending.toNat < 2 ^ (8 * (msg.length % 8)) := hs.byteIndex ▸ hs.buffered.2
  have inside : msg.length / 8 * 8 + k < (msg ++ [v]).length := by
    rw [List.length_append, List.length_singleton]
    omega
  rw [laneByte_blockLane _ _ _ hk, lane_start, List.getD_append _ _ _ _ inside,
    ← laneByte_pending_or_placeByte bound hs.pending v (by omega), full]

/-- Absorbing a byte of the string takes the lanes one byte on in the sponge. -/
theorem absorbByte_sponges {p msg : List Byte} {v : Byte} {s : State} (hs : Sponges p msg s)
    (hp : msg ++ [v] <+: p) : Sponges p (msg ++ [v]) (absorbByte v s) := by
  obtain ⟨bookkeeps, lanes⟩ := hs
  refine ⟨absorbByte_bookkeeps bookkeeps v, ?_⟩
  have byteIndex := bookkeeps.byteIndex
  have laneIndex := bookkeeps.laneIndex
  rw [List.length_append, List.length_singleton]
  by_cases h7 : s.byteIndex = 7
  · have full : msg.length % 8 = 7 := by rw [← byteIndex, h7]; rfl
    have word := pending_or_placeByte_eq_blockLane bookkeeps hp full
    by_cases h16 : s.laneIndex = 16
    · have last : msg.length / 8 % 17 = 16 := by rw [← laneIndex, h16]; rfl
      have block : (msg.length + 1) / 136 = msg.length / 136 + 1 := by omega
      have lane : (msg.length + 1) / 8 % 17 = 0 := by omega
      rw [absorbByte_fillBlock v s h7 h16, block, lane, lanesFilled_zero, blocksAbsorbed_succ, lanesFilled_succ]
      simp only [word, lanes, last]
    · have notLast : msg.length / 8 % 17 ≠ 16 := by rw [← laneIndex]; bv_omega
      have block : (msg.length + 1) / 136 = msg.length / 136 := by omega
      have lane : (msg.length + 1) / 8 % 17 = msg.length / 8 % 17 + 1 := by omega
      rw [absorbByte_fillLane v s h7 h16, block, lane, lanesFilled_succ]
      simp only [word, lanes, laneIndex]
  · have room : msg.length % 8 ≠ 7 := by rw [← byteIndex]; bv_omega
    have block : (msg.length + 1) / 136 = msg.length / 136 := by omega
    have lane : (msg.length + 1) / 8 = msg.length / 8 := by omega
    rw [absorbByte_buffer v s h7, block, lane]
    exact lanes

/-- Absorbing a byte string, one byte after another. -/
theorem absorbBytes_sponges {p msg : List Byte} {s : State} (hs : Sponges p msg s) (bytes : List Byte)
    (hp : msg ++ bytes <+: p) : Sponges p (msg ++ bytes) (absorbBytes bytes s) := by
  induction bytes generalizing msg s with
  | nil => rwa [List.append_nil, absorbBytes_nil]
  | cons v rest ih =>
    rw [List.append_cons] at hp ⊢
    rw [absorbBytes_cons]
    exact ih (absorbByte_sponges hs (List.IsPrefix.trans ⟨rest, rfl⟩ hp)) hp

/-- The pad's last bit stands in the last byte of its lane. -/
theorem laneByte_padBit {k : Nat} (hk : k < 8) :
    laneByte 0x8000000000000000#64 k = if k = 7 then 0x80#8 else 0#8 := by
  have placed : 0x8000000000000000#64 = placeByte 0x80 7 := rfl
  rw [placed, laneByte_placeByte _ hk]
  rfl

/-- From the unfinished lane on, the lanes of the padded message are `PENDING` with the suffix, zeros, and the pad's last bit
in lane 16. -/
theorem blockLane_padded {msg : List Byte} {s : State} (hs : Bookkeeps msg s) (mode : PadMode) {j : Nat}
    (hl : msg.length / 8 % 17 ≤ j) (hj : j < 17) :
    Reference.blockLane (padded mode msg) (msg.length / 136) j =
      (if j = msg.length / 8 % 17 then s.pending ^^^ placeByte (suffixByte mode) (msg.length % 8) else 0) ^^^
        (if j = 16 then 0x8000000000000000 else 0) := by
  apply lane_eq_of_laneByte_eq
  intro k hk
  have bit : laneByte (if j = 16 then 0x8000000000000000 else 0) k =
      if 136 * (msg.length / 136) + 8 * j + k = 136 * (msg.length / 136) + 135 then 0x80 else 0 := by
    by_cases h16 : j = 16
    · simp [h16, laneByte_padBit hk, Nat.add_assoc, show 128 + k = 135 ↔ k = 7 by omega]
    · simp [h16, Nat.add_assoc, show 8 * j + k ≠ 135 by omega]
  rw [laneByte_blockLane _ _ _ hk, padded_getD _ _ (by omega), laneByte_xor, bit]
  congr 1
  by_cases first : j = msg.length / 8 % 17
  · have place : msg.length / 8 * 8 + k = msg.length ↔ k = msg.length % 8 := by omega
    rw [if_pos first, laneByte_xor, hs.laneByte_pending, laneByte_placeByte _ hk, first, lane_start]
    simp only [place]
    rfl
  · rw [if_neg first, List.getD_eq_default _ _ (by omega), if_neg (by omega)]
    exact (laneByte_zero k).symm

/-- The padded lanes one by one. -/
theorem padLanes_getElem (s : State) {j : Nat} (hj : j < 25) :
    (padLanes s)[j] =
      s.lanes[j] ^^^
        (if j = s.laneIndex.toNat then s.pending ^^^ placeByte (suffixByte s.padMode) s.byteIndex.toNat else 0) ^^^
        (if j = 16 then 0x8000000000000000 else 0) := by
  rw [padLanes, xorLane_getElem, xorLane_getElem]
  split_ifs <;> simp

/-- What FINALIZE pads is the last block of the padded message, filled. -/
theorem padLanes_eq_lanesFilled {msg : List Byte} {s : State} (hs : Sponges (padded s.padMode msg) msg s) :
    padLanes s = lanesFilled (padded s.padMode msg) (msg.length / 136) 17 := by
  obtain ⟨bookkeeps, lanes⟩ := hs
  have byteIndex := bookkeeps.byteIndex
  have laneIndex := bookkeeps.laneIndex
  ext1 j hj
  rw [padLanes_getElem, lanes, laneIndex, byteIndex, lanesFilled_getElem _ _ _ hj, lanesFilled_getElem _ _ _ hj]
  obtain done | rest | capacity : j < msg.length / 8 % 17 ∨ msg.length / 8 % 17 ≤ j ∧ j < 17 ∨ 17 ≤ j := by omega
  · simp [done, done.ne, show j ≠ 16 by omega, show j < 17 by omega]
  · obtain ⟨hl, h17⟩ := rest
    rw [if_neg (by omega), if_pos h17, blockLane_padded bookkeeps s.padMode hl h17, BitVec.xor_assoc]
  · simp [show ¬ j < msg.length / 8 % 17 by omega, show j ≠ msg.length / 8 % 17 by omega, show j ≠ 16 by omega,
      show ¬ j < 17 by omega]

/-- FINALIZE leaves the sponge of the message. -/
theorem finishHash_lanes {msg : List Byte} {s : State} (hs : Sponges (padded s.padMode msg) msg s) :
    (finishHash s).lanes = Reference.spongeLanes s.padMode msg := by
  rw [finishHash_eq, spongeLanes_eq_blocksAbsorbed, blocksAbsorbed_succ, ← padLanes_eq_lanesFilled hs]

/-- A whole hash: INIT, the message, FINALIZE. -/
theorem execAll_hash {ups : List Instr} (hups : ∀ i ∈ ups, isUpdate i = true) {s : State} (hp : s.phase ≠ .faulted) :
    execAll (.init :: (ups ++ [.finalize])) s = .next (finishHash (absorbBytes (messageOf ups) (startHash s))) := by
  have phase : (absorbBytes (messageOf ups) (startHash s)).phase = .absorbing := absorbBytes_phase _ _
  have range := absorbBytes_inRange (messageOf ups) (startHash_buffered s).1
  rw [← List.cons_append, execAll_append _ _ s (execAll_init_updates hups hp)]
  simp only [execAll, exec_absorbing .finalize phase range]
  rfl

/-- Settles O44: the bytes keep the lanes at their place in the sponge of the padded message, and FINALIZE completes its last
block. -/
theorem digestIsTheSpongeOfTheMessage : Obligations.DigestIsTheSpongeOfTheMessage := by
  intro s ups hp idle hups
  have message : Sponges (padded s.padMode (messageOf ups)) (messageOf ups)
      (absorbBytes (messageOf ups) (startHash s)) :=
    absorbBytes_sponges (startHash_sponges _ s) (messageOf ups) ⟨_, rfl⟩
  have padMode : (absorbBytes (messageOf ups) (startHash s)).padMode = s.padMode := absorbBytes_padMode _ _
  refine ⟨_, execAll_hash hups hp, finishHash_phase _, ?_, ?_⟩
  · have valid : (finishHash (absorbBytes (messageOf ups) (startHash s))).digestValid = true := by
      simpa [State.digestValid, State.busy] using idle
    rw [digestPort_of_valid valid, finishHash_lanes (by rwa [padMode]), padMode]
  · rw [finishHash_permCount, message.bookkeeps.permCount]

end Sys2Proof.Machine
end

section
/-! SUPPORT. The decoder against the encoder, row by row of the opcode table, and which words are illegal (30_encoding.md
R70-R76). -/

namespace Sys2Proof

/-! The two fields of a word, and masks on them. -/

/-- A word is packed from exactly its own two fields. -/
theorem eq_packWord_iff {w : CmdWord} {op : Byte} {d : U32} :
    w = packWord op d ↔ opField w = op ∧ operandField w = d := by
  constructor
  · rintro rfl
    exact ⟨opField_packWord op d, operandField_packWord op d⟩
  · rintro ⟨rfl, rfl⟩
    exact (packWord_fields w).symm

/-- A mask acts on each field by itself. -/
theorem and_packWord_eq_iff {w : CmdWord} {opMask op : Byte} {mask d : U32} :
    w &&& packWord opMask mask = packWord op d ↔ opField w &&& opMask = op ∧ operandField w &&& mask = d := by
  have fields : w &&& packWord opMask mask = packWord (opField w &&& opMask) (operandField w &&& mask) :=
    calc w &&& packWord opMask mask
        = packWord (opField w) (operandField w) &&& packWord opMask mask := by rw [packWord_fields]
      _ = packWord (opField w &&& opMask) (operandField w &&& mask) := BitVec.and_append
  rw [fields, eq_packWord_iff, opField_packWord, operandField_packWord]

/-- Bits [31:8] and [7:0] of the operand make up the operand. -/
theorem operand_eq_append (d : U32) : d = d.extractLsb' 8 24 ++ d.extractLsb' 0 8 := by
  rw [BitVec.extractLsb'_append_extractLsb'_eq_extractLsb' (Nat.zero_add 8).symm]
  exact BitVec.extractLsb'_eq_self.symm

/-- The mask of format B keeps bits [31:8] of the operand. -/
theorem and_formatB_mask_eq_zero_iff (d : U32) : d &&& 0xFFFFFF00 = 0 ↔ d.extractLsb' 8 24 = 0 := by
  have masked : d &&& 0xFFFFFF00 = d.extractLsb' 8 24 ++ 0#8 :=
    calc d &&& 0xFFFFFF00
        = (d.extractLsb' 8 24 ++ d.extractLsb' 0 8) &&& (BitVec.allOnes 24 ++ 0#8) := by rw [← operand_eq_append]; rfl
      _ = d.extractLsb' 8 24 ++ 0#8 := by rw [BitVec.and_append, BitVec.and_allOnes, BitVec.and_zero]
  rw [masked]
  exact BitVec.append_left_inj (s₂ := 0#24) 0#8

/-- An operand is the zero extension of a byte exactly when bits [31:8] are 0 and bits [7:0] are the byte. -/
theorem eq_setWidth_byte_iff {d : U32} {v : Byte} :
    d = v.setWidth 32 ↔ d.extractLsb' 8 24 = 0 ∧ v = d.extractLsb' 0 8 := by
  have extended : v.setWidth 32 = 0#24 ++ v := BitVec.setWidth_eq_append (by decide)
  constructor
  · rintro rfl
    rw [extended]
    exact ⟨BitVec.extractLsb'_append_eq_left, BitVec.extractLsb'_append_eq_right.symm⟩
  · rintro ⟨high, rfl⟩
    have zero : 0#24 = d.extractLsb' 8 24 := high.symm
    rw [extended, zero]
    exact operand_eq_append d

/-- Bits [7:0] of the operand field are bits [7:0] of the word. -/
theorem operandField_low (w : CmdWord) : (operandField w).extractLsb' 0 8 = w.extractLsb' 0 8 := by
  ext k hk
  simp [operandField]

/-- Bits [31:8] of the operand field are bits [31:8] of the word. -/
theorem operandField_high (w : CmdWord) : (operandField w).extractLsb' 8 24 = w.extractLsb' 8 24 := by
  ext k hk
  simp [operandField]

/-! What the decoder answers, opcode by opcode. -/

theorem ifZero_eq_command_iff {n : Nat} {z : BitVec n} {i j : Instr} :
    ifZero z i = .command j ↔ z = 0 ∧ i = j := by
  by_cases hz : z = 0#n <;> simp [ifZero, hz]

theorem ifZero_illegal_iff {n : Nat} {z : BitVec n} {i : Instr} : (∃ why, ifZero z i = .illegal why) ↔ z ≠ 0 := by
  by_cases hz : z = 0#n <;> simp [ifZero, hz]

/-- The opcode map: the four commands, and the reserved opcodes 0x00 and 0x05..0xFF (30_encoding.md R73, R75). -/
theorem opcode_cases (op : Byte) :
    op = 0x01 ∨ op = 0x02 ∨ op = 0x03 ∨ op = 0x04 ∨ (op = 0x00 ∨ 0x05 ≤ op.toNat) := by
  bv_omega

/-- A reserved opcode is illegal whatever its operand (30_encoding.md R75). -/
theorem decode_of_reserved {w : CmdWord} (h : opField w = 0x00 ∨ 0x05 ≤ (opField w).toNat) :
    decode w = .illegal .reservedOpcode :=
  decode_reserved (by bv_omega) (by bv_omega) (by bv_omega) (by bv_omega)

/-- The decoder gives back what the encoder was given. -/
theorem decode_encode (i : Instr) : decode (encode i) = .command i := by
  cases i with
  | init =>
    rw [encode, decode_op1 (opField_packWord _ _), operandField_packWord, ifZero_eq_command_iff]
    exact ⟨rfl, rfl⟩
  | updateByte v =>
    obtain ⟨high, low⟩ := eq_setWidth_byte_iff.1 (rfl : v.setWidth 32 = v.setWidth 32)
    rw [encode, decode_op2 (opField_packWord _ _), operandField_packWord, ifZero_eq_command_iff, ← low]
    exact ⟨high, rfl⟩
  | updateU32le d => rw [encode, decode_op3 (opField_packWord _ _), operandField_packWord]
  | finalize =>
    rw [encode, decode_op4 (opField_packWord _ _), operandField_packWord, ifZero_eq_command_iff]
    exact ⟨rfl, rfl⟩

/-- A word that decodes to a command is what the encoder gives for it: every bit of it was read. -/
theorem encode_of_decode {w : CmdWord} {i : Instr} (h : decode w = .command i) : encode i = w := by
  symm
  obtain hop | hop | hop | hop | hop := opcode_cases (opField w)
  · rw [decode_op1 hop, ifZero_eq_command_iff] at h
    obtain ⟨hd, rfl⟩ := h
    exact eq_packWord_iff.2 ⟨hop, hd⟩
  · rw [decode_op2 hop, ifZero_eq_command_iff] at h
    obtain ⟨high, rfl⟩ := h
    exact eq_packWord_iff.2 ⟨hop, eq_setWidth_byte_iff.2 ⟨high, rfl⟩⟩
  · rw [decode_op3 hop] at h
    cases h
    exact eq_packWord_iff.2 ⟨hop, rfl⟩
  · rw [decode_op4 hop, ifZero_eq_command_iff] at h
    obtain ⟨hd, rfl⟩ := h
    exact eq_packWord_iff.2 ⟨hop, hd⟩
  · rw [decode_of_reserved hop] at h
    cases h

/-- The words of a command: its encoding and no other. -/
theorem decode_eq_command_iff {w : CmdWord} {i : Instr} : decode w = .command i ↔ w = encode i :=
  ⟨fun h => (encode_of_decode h).symm, fun h => h ▸ decode_encode i⟩

/-- A 40-bit table number is the word it numbers. -/
theorem decodeTableWord_toNat {w : CmdWord} {i : Instr} (h : decode w = .command i) :
    decodeTableWord 40 w.toNat = some i := by
  have small : w.toNat % 2 ^ 40 = w.toNat := Nat.mod_eq_of_lt w.isLt
  simp only [decodeTableWord, small, if_pos w.isLt, BitVec.ofNat_toNat, BitVec.setWidth_eq, h]

/-- Settles O4: a decoded encoding gives the command back, and the table number of a word decodes as the word. -/
theorem decodeEncodeRoundTrip : Obligations.DecodeEncodeRoundTrip :=
  fun i _ => ⟨decode_encode i, decodeTableWord_toNat (decode_encode i)⟩

/-- Settles O5, by the word's opcode: a command's word has its fields read or checked to be 0. -/
theorem encodeDecodeRoundTrip : Obligations.EncodeDecodeRoundTrip :=
  fun _ _ => encode_of_decode

/-! The rows of the opcode table by match and mask (30_encoding.md R73). -/

/-- A row of format N: every bit of the word is fixed. -/
theorem eq_packWord_iff_formatN {w : CmdWord} {op : Byte} {d : U32} :
    w = packWord op d ↔ w &&& 0xFFFFFFFFFF = packWord op d := by
  have all : w &&& 0xFFFFFFFFFF = w := BitVec.and_allOnes
  rw [all]

/-- A row of format B: the opcode and bits [31:8] are fixed, and the operand is bits [7:0]. -/
theorem eq_packWord_iff_formatB {w : CmdWord} {op v : Byte} :
    w = packWord op (v.setWidth 32) ↔ w &&& 0xFFFFFFFF00 = packWord op 0 ∧ v = w.extractLsb' 0 8 := by
  have mask : (0xFFFFFFFF00 : CmdWord) = packWord (BitVec.allOnes 8) 0xFFFFFF00 := rfl
  rw [mask, and_packWord_eq_iff, BitVec.and_allOnes, and_formatB_mask_eq_zero_iff, ← operandField_low, eq_packWord_iff,
    eq_setWidth_byte_iff, and_assoc]

/-- A row of format W: the opcode is fixed, and the operand is bits [31:0]. -/
theorem eq_packWord_iff_formatW {w : CmdWord} {op : Byte} {d : U32} :
    w = packWord op d ↔ w &&& 0xFF00000000 = packWord op 0 ∧ d = w.extractLsb' 0 32 := by
  have mask : (0xFF00000000 : CmdWord) = packWord (BitVec.allOnes 8) 0 := rfl
  rw [mask, and_packWord_eq_iff, BitVec.and_allOnes, eq_packWord_iff]
  simp [operandField, eq_comm]

/-- A packed word as the number of its opcode byte above its operand's. -/
theorem packWord_eq_ofNat (op : Byte) (d : U32) : packWord op d = BitVec.ofNat 40 (op.toNat * 2 ^ 32 + d.toNat) := by
  rw [← packWord_toNat, BitVec.ofNat_toNat, BitVec.setWidth_eq]

/-- Settles O2: a command's words are its encoding alone, which each row's match and mask describe. -/
theorem decodeMatchesOpcodeTable : Obligations.DecodeMatchesOpcodeTable := by
  refine ⟨fun w => ⟨?_, fun v => ?_, fun d => ?_, ?_⟩, rfl, fun v => ?_, fun d => ?_, rfl,
    fun v => ⟨_, decode_encode _⟩, fun d => ⟨_, decode_encode _⟩⟩
  · rw [decode_eq_command_iff]
    exact eq_packWord_iff_formatN
  · rw [decode_eq_command_iff]
    exact eq_packWord_iff_formatB
  · rw [decode_eq_command_iff]
    exact eq_packWord_iff_formatW
  · rw [decode_eq_command_iff]
    exact eq_packWord_iff_formatN
  · have byte : (v.setWidth 32).toNat = v.toNat := BitVec.toNat_setWidth_of_le (by decide)
    rw [encode, packWord_eq_ofNat, byte]
    rfl
  · rw [encode, packWord_eq_ofNat]
    rfl

/-- Which words are illegal, by their fields (30_encoding.md R75, R76). -/
theorem decode_illegal_iff (w : CmdWord) :
    (∃ why, decode w = .illegal why) ↔
      (opField w = 0x00 ∨ 0x05 ≤ (opField w).toNat) ∨
      ((opField w = 0x01 ∨ opField w = 0x04) ∧ operandField w ≠ 0) ∨
      (opField w = 0x02 ∧ (operandField w).extractLsb' 8 24 ≠ 0) := by
  obtain hop | hop | hop | hop | hop := opcode_cases (opField w)
  · rw [decode_op1 hop, ifZero_illegal_iff]
    simp [hop]
  · rw [decode_op2 hop, ifZero_illegal_iff]
    simp [hop]
  · rw [decode_op3 hop]
    simp [hop]
  · rw [decode_op4 hop, ifZero_illegal_iff]
    simp [hop]
  · exact iff_of_true ⟨_, decode_of_reserved hop⟩ (.inl hop)

/-- Settles O3: the illegal words by their fields, and the fault that `runWord` raises for each. -/
theorem illegalWordsRaiseIllegalCommand : Obligations.IllegalWordsRaiseIllegalCommand := by
  intro w
  refine ⟨?_, fun why s hd hp => Machine.runWord_illegal hd hp⟩
  rw [← operandField_high]
  exact decode_illegal_iff w

/-- Settles O1: the spec's twelve fixed words, each run through the decoder. -/
theorem specWordsDecode : Obligations.SpecWordsDecode := by
  unfold Obligations.SpecWordsDecode
  decide

end Sys2Proof
end

section
/-! SUPPORT. What the assembler accepts, and the message that assembled updates absorb (30_encoding.md R78, R79). -/

namespace Sys2Proof.Machine

/-- The assembler answers exactly on well-formed lines, and then with the line's commands. -/
theorem Asm.assemble_eq_some_iff {l : Source} {is : List Instr} :
    assemble l = some is ↔ l.wellFormed = true ∧ expand l = is := by
  simp [assemble]

theorem Asm.assemble_of_wellFormed {l : Source} (h : l.wellFormed = true) : assemble l = some (expand l) :=
  assemble_eq_some_iff.2 ⟨h, rfl⟩

theorem Asm.assemble_eq_none_iff {l : Source} : assemble l = none ↔ ¬ l.wellFormed = true := by
  simp [assemble]

/-! The operand checks (30_encoding.md R78). -/

theorem wellFormed_updateByte_iff (n : Nat) : (Source.updateByte n).wellFormed = true ↔ n < 256 := by
  simp [Source.wellFormed]

theorem wellFormed_updateU32le_iff (n : Nat) : (Source.updateU32le n).wellFormed = true ↔ n < 4294967296 := by
  simp [Source.wellFormed]

theorem wellFormed_absorbBytes_iff (ns : List Nat) :
    (Source.absorbBytes ns).wellFormed = true ↔ ns ≠ [] ∧ ∀ n ∈ ns, n < 256 := by
  simp [Source.wellFormed]

theorem wellFormed_absorbWords_iff (ns : List Nat) :
    (Source.absorbWords ns).wellFormed = true ↔ ns ≠ [] ∧ ∀ n ∈ ns, n < 4294967296 := by
  simp [Source.wellFormed]

/-! The message of a list of updates (42_absorption.md R150, R151). -/

/-- UPDATE_BYTE of each byte absorbs the bytes. -/
theorem messageOf_map_updateByte (bytes : List Byte) : messageOf (bytes.map .updateByte) = bytes := by
  rw [messageOf, List.flatMap_map]
  exact List.flatMap_singleton' bytes

/-- UPDATE_U32LE of each word absorbs four bytes a word. -/
theorem messageOf_map_updateU32le_length (ws : List U32) :
    (messageOf (ws.map .updateU32le)).length = 4 * ws.length := by
  induction ws with
  | nil => rfl
  | cons w rest ih =>
    have first : messageOf ((w :: rest).map .updateU32le) = wordBytes w ++ messageOf (rest.map .updateU32le) := rfl
    have four : (wordBytes w).length = 4 := rfl
    rw [first, List.length_append, four, ih, List.length_cons, Nat.mul_succ, Nat.add_comm]

/-- ABSORB_BYTES of bytes in range absorbs the bytes it lists. -/
theorem messageOf_expand_absorbBytes {ns : List Nat} (h : ∀ n ∈ ns, n < 256) :
    (messageOf (Asm.expand (.absorbBytes ns))).map BitVec.toNat = ns := by
  have bytes : Asm.expand (.absorbBytes ns) = (ns.map (BitVec.ofNat 8)).map .updateByte := List.map_map.symm
  have kept : ∀ n ∈ ns, (BitVec.ofNat 8 n).toNat = id n := fun n hn =>
    (BitVec.toNat_ofNat n 8).trans (Nat.mod_eq_of_lt (h n hn))
  rw [bytes, messageOf_map_updateByte, List.map_map]
  exact (List.map_congr_left kept).trans (List.map_id ns)

/-- ABSORB_WORDS absorbs four bytes for each word it lists. -/
theorem messageOf_expand_absorbWords_length (ns : List Nat) :
    (messageOf (Asm.expand (.absorbWords ns))).length = 4 * ns.length := by
  have words : Asm.expand (.absorbWords ns) = (ns.map (BitVec.ofNat 32)).map .updateU32le := List.map_map.symm
  rw [words, messageOf_map_updateU32le_length, List.length_map]

/-- Settles O49: what the assembler accepts is what the operand checks say, and an operand that fits its field is kept by
it. -/
theorem assemblerNeverTruncates : Obligations.AssemblerNeverTruncates := by
  refine ⟨fun n hn => ⟨BitVec.ofNat 8 n, Nat.mod_eq_of_lt hn, ?_⟩, fun n hn => ?_,
    fun n hn => ⟨BitVec.ofNat 32 n, Nat.mod_eq_of_lt hn, ?_⟩, fun n hn => ?_,
    fun ns hne hns => ?_, fun ns is h => ?_, fun ns hne hns => ?_, fun ns is h => ?_⟩
  · exact Asm.assemble_of_wellFormed ((wellFormed_updateByte_iff n).2 hn)
  · rw [Asm.assemble_eq_none_iff, wellFormed_updateByte_iff]
    omega
  · exact Asm.assemble_of_wellFormed ((wellFormed_updateU32le_iff n).2 hn)
  · rw [Asm.assemble_eq_none_iff, wellFormed_updateU32le_iff]
    omega
  · exact Asm.assemble_of_wellFormed ((wellFormed_absorbBytes_iff ns).2 ⟨hne, hns⟩)
  · rw [Asm.assemble_eq_some_iff, wellFormed_absorbBytes_iff] at h
    obtain ⟨⟨-, hns⟩, rfl⟩ := h
    exact ⟨hns, rfl, messageOf_expand_absorbBytes hns⟩
  · exact Asm.assemble_of_wellFormed ((wellFormed_absorbWords_iff ns).2 ⟨hne, hns⟩)
  · rw [Asm.assemble_eq_some_iff, wellFormed_absorbWords_iff] at h
    obtain ⟨⟨-, hns⟩, rfl⟩ := h
    exact ⟨hns, rfl, messageOf_expand_absorbWords_length ns⟩

/-- The four characters of `abcd` are the bytes of the word in the order UPDATE_U32LE absorbs them. -/
theorem messageOf_absorbText_abcd : messageOf (Asm.absorbText ['a', 'b', 'c', 'd']) = wordBytes 0x64636261 := by decide

/-- Settles O50: both absorb the same four bytes. -/
theorem absorbStrIsTheLittleEndianWord : Obligations.AbsorbStrIsTheLittleEndianWord := by
  refine ⟨Asm.absorbText ['a', 'b', 'c', 'd'], Asm.assemble_of_wellFormed (by decide), fun s hp hr => ?_⟩
  refine ⟨absorbBytes (wordBytes 0x64636261) s, ?_, exec_absorbing (.updateU32le 0x64636261) hp hr⟩
  rw [← messageOf_absorbText_abcd]
  exact execAll_updates (by decide) hp hr

end Sys2Proof.Machine
end

section
/-! SUPPORT. The three ROMs against their generating rules (40_init_constants.md R100-R103), and the Rho/Pi traversal against
the per-lane form (R104, 41_permutation.md R122, R123). -/

namespace Sys2Proof.Machine

/-! The lanes that `PI` names. -/

theorem piAt_injective : Function.Injective piAt := by decide

theorem piAt_ne_zero : ∀ i : Fin 24, piAt i ≠ 0 := by decide

theorem exists_piAt_eq : ∀ l : Fin 25, l ≠ 0 → ∃ i : Fin 24, piAt i = l := by decide

/-- R102's formula for the rotation offsets. -/
theorem rot_eq_triangular : ∀ i : Fin 24, (Rom.rot[i]).toNat = ((i.val + 1) * (i.val + 2) / 2) % 64 := by decide

/-- R101's rule for the round constants, run for each of the 24 entries. -/
theorem rc_eq_rcByRule : ∀ ir : Fin 24, Rom.rc[ir] = Reference.rcByRule ir.val := by decide +kernel

/-- Settles O6: RC and ROT entry by entry; a lane other than 0 has one place in `PI` since `piAt` is injective. -/
theorem romsFollowTheirRules : Obligations.RomsFollowTheirRules := by
  refine ⟨rc_eq_rcByRule, rot_eq_triangular, fun l hl => ?_, rfl⟩
  obtain ⟨i, rfl⟩ := exists_piAt_eq l hl
  exact ⟨i, rfl, fun k hk => piAt_injective (Fin.ext hk)⟩

/-! The traversal step by step. -/

/-- The lanes and the rolling temporary after the first `k` steps of the traversal. -/
def rhoPiAfter (A : Lanes) (k : Nat) : Lanes × Lane := ((List.finRange 24).take k).foldl rhoPiStep (A, A[1])

theorem rhoPi_eq_rhoPiAfter (A : Lanes) : rhoPi A = (rhoPiAfter A 24).1 := rfl

theorem rhoPiAfter_succ (A : Lanes) (i : Fin 24) :
    rhoPiAfter A (i.val + 1) = rhoPiStep (rhoPiAfter A i.val) i := by
  simp [rhoPiAfter, List.take_add_one]

/-- The lane whose value the temporary holds before step `k`: lane 1 at the start, then the lane that step `k - 1` wrote. -/
def carriedLane : Nat → Fin 25
  | 0 => 1
  | k + 1 => piAt (Fin.ofNat 24 k)

theorem carriedLane_succ (i : Fin 24) : carriedLane (i.val + 1) = piAt i := by simp [carriedLane]

/-- A step writes the lane it visits. -/
theorem rhoPiStep_visited (p : Lanes × Lane) (i : Fin 24) :
    (rhoPiStep p i).1[piAt i] = rotl64 p.2 (rotAt i) := by
  simp [rhoPiStep]

/-- A step puts the old value of the lane it visits into the temporary. -/
theorem rhoPiStep_temporary (p : Lanes × Lane) (i : Fin 24) : (rhoPiStep p i).2 = p.1[piAt i] := rfl

/-- A step leaves every other lane. -/
theorem rhoPiStep_other (p : Lanes × Lane) {i : Fin 24} {j : Fin 25} (hj : piAt i ≠ j) :
    (rhoPiStep p i).1[j] = p.1[j] :=
  Vector.getElem_set_ne (piAt i).isLt j.isLt (Fin.val_ne_of_ne hj)

/-- A lane that no step so far has visited holds its input value. -/
theorem rhoPiAfter_unvisited (A : Lanes) {j : Fin 25} {k : Nat} (hk : k ≤ 24)
    (hj : ∀ i : Fin 24, i.val < k → piAt i ≠ j) : (rhoPiAfter A k).1[j] = A[j] := by
  induction k with
  | zero => rfl
  | succ k ih =>
    rw [rhoPiAfter_succ A ⟨k, hk⟩, rhoPiStep_other _ (hj ⟨k, hk⟩ (Nat.lt_succ_self k))]
    exact ih (by omega) fun i hi => hj i (by omega)

/-- The temporary holds the input value of the lane it is carried from: no lane is visited twice. -/
theorem rhoPiAfter_temporary (A : Lanes) {k : Nat} (hk : k ≤ 24) : (rhoPiAfter A k).2 = A[carriedLane k] := by
  cases k with
  | zero => rfl
  | succ k =>
    obtain ⟨i, rfl⟩ : ∃ i : Fin 24, i.val = k := ⟨⟨k, hk⟩, rfl⟩
    simp only [rhoPiAfter_succ, carriedLane_succ, rhoPiStep_temporary]
    exact rhoPiAfter_unvisited A (by omega) fun _ before same =>
      absurd (congrArg Fin.val (piAt_injective same)) before.ne

/-- A visited lane holds, rotated, the input value that was carried to it: no later step visits it. -/
theorem rhoPiAfter_visited (A : Lanes) (i : Fin 24) {k : Nat} (hk : k ≤ 24) (hi : i.val < k) :
    (rhoPiAfter A k).1[piAt i] = rotl64 A[carriedLane i.val] (rotAt i) := by
  induction k with
  | zero => omega
  | succ k ih =>
    obtain rfl | earlier : i.val = k ∨ i.val < k := by omega
    · rw [rhoPiAfter_succ, rhoPiStep_visited, rhoPiAfter_temporary A (by omega)]
    · have other : piAt ⟨k, hk⟩ ≠ piAt i := fun same =>
        absurd (congrArg Fin.val (piAt_injective same)) earlier.ne'
      rw [rhoPiAfter_succ A ⟨k, hk⟩, rhoPiStep_other _ other]
      exact ih (by omega) earlier

/-- R104's table: one step carries lane `s`, rotates it by `r(s)` and writes it to `d(s)`. -/
theorem exists_step_carrying : ∀ s : Fin 25, s ≠ 0 → ∃ i : Fin 24,
    carriedLane i.val = s ∧ (piAt i).val = Reference.piDest s.val ∧
      (rotAt i).val = Reference.rhoOffset[s] := by decide

/-- Settles O7: no step visits lane 0, and the step that carries lane `s` writes it, rotated by `r(s)`, to `d(s)`. -/
theorem rhoPiMovesEachLane : Obligations.RhoPiMovesEachLane := by
  intro A
  rw [rhoPi_eq_rhoPiAfter]
  refine ⟨rhoPiAfter_unvisited A (j := 0) le_rfl fun i _ => piAt_ne_zero i, fun s hs => ?_⟩
  obtain ⟨i, rfl, destination, offset⟩ := exists_step_carrying s hs
  rw [← destination, ← offset, Vector.getElem?_eq_getElem (piAt i).isLt]
  exact congrArg some (rhoPiAfter_visited A i le_rfl i.isLt)

end Sys2Proof.Machine
end

section
/-! SUPPORT. INIT in every phase (40_init_constants.md R105), and that a hash after it depends on the message and PAD_MODE
alone (60_exceptions.md R211). -/

namespace Sys2Proof.Machine

/-- INIT twice is INIT once. -/
theorem startHash_startHash (s : State) : startHash (startHash s) = startHash s := rfl

theorem startHash_digestValid (s : State) : (startHash s).digestValid = false := by simp [State.digestValid]

/-- STATUS after INIT: PHASE ABSORBING, and PAD_MODE. -/
theorem startHash_status {s : State} (idle : s.busy = false) (noFault : s.faultCode = .none) :
    (startHash s).status = match s.padMode with | .sha3 => 0x01 | .keccak => 0x41 := by
  have busy : (startHash s).busy = false := idle
  have fields : (startHash s).statusFields = FaultCode.none.code ++ Phase.absorbing.code := by
    simp [State.statusFields, busy, noFault]
  rw [State.status, startHash_digestValid, busy, fields, startHash_padMode]
  cases s.padMode <;> rfl

/-- Settles O13: INIT's word and its illegal forms by the decoder's laws, its effect by `startHash`. -/
theorem initStartsANewHash : Obligations.InitStartsANewHash := by
  refine ⟨decode_encode .init, fun w s op operand hp => ?_, fun s => exec_faulted .init, fun s hp => ?_⟩
  · obtain ⟨illegal, raises⟩ := illegalWordsRaiseIllegalCommand w
    obtain ⟨why, hd⟩ := illegal.2 (.inr (.inl ⟨.inl op, operand⟩))
    exact raises why s hd hp
  · exact ⟨startHash s, exec_init_runs hp, rfl, startHash_digestValid s, startHash_status,
      exec_init_runs (s := startHash s) (by simp)⟩

/-- The lanes after a whole hash are the sponge of its message. -/
theorem execAll_hash_lanes {ups : List Instr} (hups : ∀ i ∈ ups, isUpdate i = true) {s t : State}
    (hp : s.phase ≠ .faulted) (h : execAll (.init :: (ups ++ [.finalize])) s = .next t) :
    t.lanes = Reference.spongeLanes s.padMode (messageOf ups) := by
  have padMode : (absorbBytes (messageOf ups) (startHash s)).padMode = s.padMode := absorbBytes_padMode _ _
  cases (execAll_hash hups hp).symm.trans h
  rw [← padMode]
  exact finishHash_lanes (absorbBytes_sponges (startHash_sponges _ s) (messageOf ups) ⟨_, rfl⟩)

/-- Settles O47: lanes and digest are the sponge of the message under PAD_MODE, which the two contexts share. -/
theorem nothingLeaksIntoANewHash : Obligations.NothingLeaksIntoANewHash := by
  intro s s' ups hp hp' idle idle' padMode hups
  obtain ⟨t, ht, -, digest, -⟩ := digestIsTheSpongeOfTheMessage s ups hp idle hups
  obtain ⟨t', ht', -, digest', -⟩ := digestIsTheSpongeOfTheMessage s' ups hp' idle' hups
  refine ⟨t, t', ht, ht', ?_, ?_, ?_⟩
  · rw [execAll_hash_lanes hups hp ht, execAll_hash_lanes hups hp' ht', padMode]
  · rw [digest, digest', padMode]
  · simp [digest]

end Sys2Proof.Machine
end

section
/-! SUPPORT. The corner cases of Theta and Chi, Iota lane by lane, and the 24 rounds as a chain of states
(41_permutation.md R121, R124-R127, R130). -/

namespace Sys2Proof.Machine

/-! Theta on a state of zero parities, and Chi row by row. -/

/-- With zero parities the neighbours of every column mix to 0. -/
theorem columnMix_eq_zero {A : Lanes} (parities : ∀ x, columnParity A x = 0) (x : Fin 5) : columnMix A x = 0#64 := by
  simp [columnMix, parities, rotl64]

theorem theta_eq_self {A : Lanes} (parities : ∀ x, columnParity A x = 0) : theta A = A := by
  ext1 i hi
  rw [theta_getElem, columnMix_eq_zero parities, BitVec.xor_zero]

/-- A row of five equal lanes stays, whatever their value: `~v & v` is 0. -/
theorem chi_constant_row {A : Lanes} {y : Fin 5} {v : Lane} (row : ∀ x : Fin 5, A[x.val + 5 * y.val] = v) (x : Fin 5) :
    (chi A)[x.val + 5 * y.val] = v := by
  have noMix : ~~~v &&& v = 0#64 := by simp [BitVec.and_comm]
  rw [chi_at, row, row, row, noMix, BitVec.xor_zero]

theorem chi_row_congr {A B : Lanes} {y : Fin 5} (row : ∀ x : Fin 5, A[x.val + 5 * y.val] = B[x.val + 5 * y.val])
    (x : Fin 5) : (chi A)[x.val + 5 * y.val] = (chi B)[x.val + 5 * y.val] := by
  rw [chi_at, chi_at, row, row, row]

/-- Settles O9: the parities are `columnParity`, and the rows of zeros and of ones are constant rows. -/
theorem thetaAndChiFixedPoints : Obligations.ThetaAndChiFixedPoints :=
  ⟨fun _ => theta_eq_self, fun _ _ _ _ => chi_constant_row, fun _ _ _ => chi_row_congr⟩

/-! Iota lane by lane. -/

theorem iota_lane_zero (A : Lanes) (ir : Fin 24) : (iota A ir)[0] = A[0] ^^^ Rom.rc[ir] := by
  simp [iota]

theorem iota_other_lane (A : Lanes) (ir : Fin 24) {i : Fin 25} (hi : i ≠ 0) : (iota A ir)[i] = A[i] :=
  Vector.getElem_set_ne (by decide) i.isLt (Fin.val_ne_of_ne hi.symm)

/-- On the zero state Iota leaves the round constant in lane 0. -/
theorem iota_zero_state (ir : Fin 24) : (iota (Vector.replicate 25 0) ir)[0] = Rom.rc[ir] := by
  simp [iota_lane_zero]

/-- Settles O10: `iota` sets lane 0 alone; the two examples are `RC[0]` and `RC[23]`. -/
theorem iotaWritesLaneZeroOnly : Obligations.IotaWritesLaneZeroOnly := by
  refine ⟨fun A ir => ⟨iota_lane_zero A ir, fun _ hi => iota_other_lane A ir hi⟩, ?_, ?_⟩
  · exact (iota_zero_state 0).trans (by decide +kernel)
  · exact (iota_zero_state 23).trans (by decide +kernel)

/-! The rounds one after another. -/

/-- The lanes after the first `k` rounds. -/
def roundsAfter (A : Lanes) (k : Nat) : Lanes := ((List.finRange 24).take k).foldl keccakRound A

theorem roundsAfter_succ (A : Lanes) (ir : Fin 24) :
    roundsAfter A (ir.val + 1) = keccakRound (roundsAfter A ir.val) ir := by
  simp [roundsAfter, List.take_add_one]

theorem keccakF_eq_roundsAfter (A : Lanes) : keccakF A = roundsAfter A 24 := by
  rw [keccakF]; rfl

/-- R126's example: on the zero state only Iota writes a lane. -/
theorem keccakRound_zero_state :
    keccakRound (Vector.replicate 25 0) 0 = Vector.ofFn (fun i : Fin 25 => if i = 0 then 1 else 0) := by
  decide +kernel

/-- R127's example: the lanes that the spec gives of `KeccakF` of the zero state. -/
theorem keccakF_zero_state :
    (keccakF (Vector.replicate 25 0))[0] = 0xF1258F7940E1DDE7 ∧
    (keccakF (Vector.replicate 25 0))[1] = 0x84D5CCF933C0478A ∧
    (keccakF (Vector.replicate 25 0))[24] = 0xEAF1FF7B5CECA249 := by
  decide +kernel

/-- Settles O11: the chain is the lanes after 0, 1, ..., 24 rounds. -/
theorem permuteRunsTheRoundsInOrder : Obligations.PermuteRunsTheRoundsInOrder :=
  ⟨fun A => ⟨roundsAfter A, rfl, (keccakF_eq_roundsAfter A).symm, roundsAfter_succ A⟩, permute_lanes,
    keccakRound_zero_state, keccakF_zero_state⟩

/-- Settles O12: `Permute`'s lanes are `KeccakF` of its lanes, and `permute_eq` names its whole write set. -/
theorem permuteDependsOnLanesAlone : Obligations.PermuteDependsOnLanesAlone := by
  refine ⟨fun s s' lanes => ?_, fun s => ⟨23, ?_⟩⟩
  · rw [permute_lanes, permute_lanes, lanes]
  · rw [permute_lanes]
    exact permute_eq s

end Sys2Proof.Machine
end

section
/-! SUPPORT. UPDATE_BYTE and UPDATE_U32LE: their words, their faults by phase, the registers they leave, and that how a
message is split between them does not matter (42_absorption.md R150-R152). -/

namespace Sys2Proof.Machine

/-- Every command but INIT is legal in ABSORBING alone (60_exceptions.md R203, R204, R207). -/
theorem faultsByPhase_of_ne_init {i : Instr} (hi : i ≠ .init) : FaultsByPhase i :=
  fun _ => ⟨exec_uninit hi, exec_finalized hi, exec_faulted i⟩

/-- A byte ORed above the buffered bytes is a byte XORed there (10_state.md R22): each bit is 0 on one side. -/
theorem or_placeByte_eq_xor {p : Lane} {k : Nat} (hp : p.toNat < 2 ^ (8 * k)) (v : Byte) :
    p ||| placeByte v k = p ^^^ placeByte v k := by
  ext j hj
  by_cases low : j < 8 * k
  · simp [placeByte, low]
  · have clear : p[j] = false :=
      Nat.testBit_lt_two_pow (Nat.lt_of_lt_of_le hp (Nat.pow_le_pow_right (by decide) (Nat.le_of_not_lt low)))
    simp [clear]

/-- Settles O14: the word by the decoder's laws, the effect by the three cases of absorbing a byte. -/
theorem updateByteAbsorbsOneByte : Obligations.UpdateByteAbsorbsOneByte := by
  intro v
  obtain ⟨-, -, encoded, -⟩ := decodeMatchesOpcodeTable
  refine ⟨encoded v ▸ decode_encode (.updateByte v), fun w s op high hp => ?_, faultsByPhase_of_ne_init (by simp),
    fun s hp hr => ⟨fun empty => or_placeByte_eq_xor empty v, fun room => ?_, fun full lane => ?_, fun full block => ?_⟩⟩
  · obtain ⟨illegal, raises⟩ := illegalWordsRaiseIllegalCommand w
    obtain ⟨why, hd⟩ := illegal.2 (.inr (.inr ⟨op, high⟩))
    exact raises why s hd hp
  · rw [exec_absorbing _ hp hr, commandBody, absorbByte_buffer v s (by bv_omega)]
    rfl
  · rw [exec_absorbing _ hp hr, commandBody, absorbByte_fillLane v s (by bv_omega) (by bv_omega), full,
      xorLane_eq_setIfInBounds]
    rfl
  · refine ⟨23, ?_⟩
    rw [exec_absorbing _ hp hr, commandBody, absorbByte_fillBlock v s (by bv_omega) (by bv_omega), full, block,
      xorLane_eq_setIfInBounds]
    rfl

/-- Settles O15: the four UPDATE_BYTEs absorb their message, which is the word's bytes. -/
theorem updateU32leIsFourUpdateBytes : Obligations.UpdateU32leIsFourUpdateBytes := by
  intro w
  obtain ⟨-, -, -, encoded, -⟩ := decodeMatchesOpcodeTable
  refine ⟨encoded w ▸ decode_encode (.updateU32le w), faultsByPhase_of_ne_init (by simp), fun s hp hr =>
    ⟨absorbBytes (wordBytes w) s, exec_absorbing (.updateU32le w) hp hr, ?_⟩⟩
  exact execAll_updates (ups := (wordBytes w).map .updateByte) (by simp [isUpdate]) hp hr

/-- Where in the block the next byte goes, 0..135 (20_memory.md R52). -/
def blockPosition (s : State) : Nat := 8 * s.laneIndex.toNat + s.byteIndex.toNat

/-- A byte moves the position on by one, and the block's last byte permutes. -/
theorem absorbByte_position (v : Byte) {s : State} (hr : InRange s) :
    blockPosition (absorbByte v s) = (blockPosition s + 1) % 136 ∧
    (absorbByte v s).permCount = s.permCount + (blockPosition s + 1) / 136 := by
  obtain ⟨hb, hl⟩ := hr
  by_cases h7 : s.byteIndex = 7
  · by_cases h16 : s.laneIndex = 16
    · have last : blockPosition s = 135 := by simp [blockPosition, h7, h16]
      rw [last, absorbByte_fillBlock v s h7 h16]
      simp [blockPosition]
    · have next : (s.laneIndex + 1).toNat = s.laneIndex.toNat + 1 := by bv_omega
      have full : s.byteIndex.toNat = 7 := by simp [h7]
      have empty : (0 : BitVec 4).toNat = 0 := rfl
      have lane : s.laneIndex.toNat ≠ 16 := by bv_omega
      rw [absorbByte_fillLane v s h7 h16]
      simp only [blockPosition, next, full, empty]
      omega
  · have next : (s.byteIndex + 1).toNat = s.byteIndex.toNat + 1 := by bv_omega
    have room : s.byteIndex.toNat ≠ 7 := by bv_omega
    rw [absorbByte_buffer v s h7]
    simp only [blockPosition, next]
    omega

/-- Bytes move the position on by their number, and each end of a block that they reach permutes. -/
theorem absorbBytes_position (bytes : List Byte) {s : State} (hr : InRange s) :
    blockPosition (absorbBytes bytes s) = (blockPosition s + bytes.length) % 136 ∧
    (absorbBytes bytes s).permCount = s.permCount + (blockPosition s + bytes.length) / 136 := by
  induction bytes generalizing s with
  | nil =>
    have inBlock : blockPosition s < 136 := by
      obtain ⟨hb, hl⟩ := hr
      unfold blockPosition
      omega
    simp [absorbBytes_nil, Nat.mod_eq_of_lt inBlock, Nat.div_eq_of_lt inBlock]
  | cons v rest ih =>
    obtain ⟨position, permCount⟩ := absorbByte_position v hr
    obtain ⟨position', permCount'⟩ := ih (absorbByte_inRange v hr)
    rw [absorbBytes_cons, position', permCount', position, permCount, List.length_cons]
    omega

/-- Settles O16: four bytes move the position in the block on by four. -/
theorem updateU32leFlushesAtMostOnce : Obligations.UpdateU32leFlushesAtMostOnce := by
  intro w s hp hr
  refine ⟨absorbBytes (wordBytes w) s, exec_absorbing (.updateU32le w) hp hr, ?_⟩
  have four : (wordBytes w).length = 4 := rfl
  obtain ⟨position, permCount⟩ := absorbBytes_position (wordBytes w) hr
  obtain ⟨hb', hl'⟩ := absorbBytes_inRange (wordBytes w) hr
  obtain ⟨hb, hl⟩ := hr
  rw [four] at position permCount
  unfold blockPosition at position permCount
  rw [permCount]
  refine ⟨?_, ?_, ?_⟩
  · omega
  · split <;> omega
  · split <;> omega

/-- Settles O46: either sequence absorbs its message from the registers that INIT clears. -/
theorem chunkingDoesNotMatter : Obligations.ChunkingDoesNotMatter := by
  intro s ups ups' hp hups hups' same
  refine ⟨absorbBytes (messageOf ups) (startHash s), execAll_init_updates hups hp, ?_⟩
  rw [same]
  exact execAll_init_updates hups' hp

end Sys2Proof.Machine
end

section
/-! SUPPORT. FINALIZE: its word, its faults by phase, the lanes it pads (43_finalization.md R170, R171), and the
bookkeeping that it leaves and that nothing reads afterwards (R174). -/

namespace Sys2Proof.Machine

/-- `xorLane` at a lane of the state. -/
theorem xorLane_eq_set (A : Lanes) {i : Nat} (hi : i < 25) (v : Lane) : xorLane A i v = A.set i (A[i] ^^^ v) := by
  ext1 j hj
  by_cases h : j = i
  · subst h
    simp
  · simp [h, Ne.symm h]

/-- The padded lanes as two writes, first `A[LANE_INDEX]`, then lane 16 as the first write leaves it. -/
theorem padLanes_eq_set (s : State) {A : Lanes}
    (hA : A = s.lanes.setIfInBounds s.laneIndex.toNat
      (s.lanes[s.laneIndex.toNat]?.getD 0 ^^^ s.pending ^^^ placeByte (suffixByte s.padMode) s.byteIndex.toNat)) :
    padLanes s = A.set 16 (A[16] ^^^ 0x8000000000000000) := by
  rw [padLanes, xorLane_eq_set _ (by decide), xorLane_eq_setIfInBounds, ← BitVec.xor_assoc, ← hA]

/-- Settles O17: the word and its illegal forms by the decoder's laws, the effect by the two lanes that
padding writes. -/
theorem finalizePadsAndPermutes : Obligations.FinalizePadsAndPermutes := by
  refine ⟨decode_encode .finalize, fun w s op operand hp => ?_, faultsByPhase_of_ne_init (by simp),
    fun s hp hr => ⟨23, ?_⟩⟩
  · obtain ⟨illegal, raises⟩ := illegalWordsRaiseIllegalCommand w
    obtain ⟨why, hd⟩ := illegal.2 (.inr (.inl ⟨.inr op, operand⟩))
    exact raises why s hd hp
  · rw [exec_absorbing _ hp hr, commandBody, finishHash_eq, padLanes_eq_set s rfl]
    rfl

/-- Settles O18: FINALIZE writes what `finishHash` writes; afterwards the ports are functions of other registers, and a
command starts a hash, faults or is ignored whatever the buffer holds. -/
theorem finalizeKeepsBookkeeping : Obligations.FinalizeKeepsBookkeeping := by
  refine ⟨fun s hp hr => ⟨finishHash s, exec_absorbing .finalize hp hr, by rw [finishHash_eq]⟩, fun s p b l hp =>
    ⟨status_congr rfl rfl rfl rfl rfl, digestPort_congr rfl rfl fun _ => rfl, fun i => ?_⟩⟩
  obtain finalized | faulted := hp
  · by_cases hi : i = .init
    · subst hi
      have runs : s.phase ≠ .faulted := by simp [finalized]
      exact ⟨_, _, exec_init_runs runs, exec_init_runs runs, rfl, fun _ _ => rfl⟩
    · exact ⟨_, _, exec_finalized hi finalized, exec_finalized hi finalized, rfl, fun init => absurd init hi⟩
  · exact ⟨_, _, exec_faulted i faulted, exec_faulted i faulted, rfl, fun _ finalized =>
      nomatch finalized.symm.trans faulted⟩

end Sys2Proof.Machine
end

section
/-! SUPPORT. What a step does at each kind of clock edge (60_exceptions.md R215, 70_reset_and_hazards.md R233, R234), and
that a completing word runs as the command it decodes to (60_exceptions.md R205). -/

namespace Sys2Proof.Machine

theorem busy_eq_false_iff (s : State) : s.busy = false ↔ s.inFlight = none := by
  simp [State.busy]

/-- A ready engine has no command in flight and sees no reset. -/
theorem cmdReady_iff (s : State) : s.cmdReady = true ↔ s.inFlight = none ∧ s.input.rst = false := by
  simp [State.cmdReady, busy_eq_false_iff]

/-- Reset comes first, whatever the engine does. -/
theorem step_reset {s : State} (hr : s.input.rst = true) : step s = .next (applyReset (passEdge s)) := by
  simp only [step_eq, clockEdge, hr, if_true]

/-- An idle engine accepts the word offered at the edge. -/
theorem step_accepts {s : State} (idle : s.inFlight = none) (hr : s.input.rst = false)
    (offer : s.input.cmdValid = true) : step s = .next (acceptWord s.input.cmdWord (passEdge s)) := by
  simp only [step_eq, clockEdge, hr, passEdge_inFlight, idle, offer, if_true, Bool.false_eq_true, if_false]

/-- An idle engine with no offer lets the edge pass. -/
theorem step_idle {s : State} (idle : s.inFlight = none) (hr : s.input.rst = false)
    (noOffer : s.input.cmdValid = false) : step s = .next (passEdge s) := by
  simp only [step_eq, clockEdge, hr, passEdge_inFlight, idle, noOffer, Bool.false_eq_true, if_false]

/-- The word in flight runs at the edge at which it completes. -/
theorem step_completes {s : State} {c : InFlight} (hr : s.input.rst = false) (hf : s.inFlight = some c)
    (h0 : c.edgesLeft = 0) : step s = runWord c.word (retire (passEdge s)) :=
  clockEdge_completes hr hf h0

/-- With a command in flight, reset is all that the edge reads of what the host drives. -/
theorem clockEdge_busy_congr {s : State} {c : InFlight} (hf : s.inFlight = some c) {a b : PortInput}
    (rst : a.rst = b.rst) : clockEdge a s = clockEdge b s := by
  simp only [clockEdge, hf, rst]

/-- A command's word runs as that command in every phase: in FAULTED both do nothing. -/
theorem runWord_eq_exec {w : CmdWord} {i : Instr} (hd : decode w = .command i) (s : State) :
    runWord w s = exec i s := by
  by_cases hp : s.phase = .faulted
  · rw [runWord_faulted w hp, exec_faulted i hp]
  · exact runWord_command hd hp

/-- A table number that reads as a command is the number of one of its words. -/
theorem decode_of_decodeTableWord {w : Nat} {i : Instr} (h : decodeTableWord 40 w = some i) :
    decode (BitVec.ofNat 40 (w % 2 ^ 40)) = .command i := by
  simp only [decodeTableWord, if_pos (Nat.mod_lt w (Nat.two_pow_pos 40))] at h
  split at h
  next j hd => rw [hd, Option.some.inj h]
  next => cases h

/-- Settles O36: acceptance, an idle edge and reset by what the step does at each; a busy engine's edge reads reset
alone. -/
theorem offersCountOnlyWhenReady : Obligations.OffersCountOnlyWhenReady := by
  refine ⟨fun s ready offer => ?_, fun s ready noOffer => ?_, fun s a b rest busy rst => ?_, fun s hr => ?_⟩
  · obtain ⟨idle, hr⟩ := (cmdReady_iff s).1 ready
    exact ⟨_, _, step_accepts idle hr offer, rfl, acceptWord_inFlight _ _, rfl,
      flightInv_acceptWord s.input.cmdWord (passEdge s) _ (acceptWord_inFlight _ _), rfl⟩
  · obtain ⟨idle, hr⟩ := (cmdReady_iff s).1 ready
    exact step_idle idle hr noOffer
  · obtain ⟨c, hc⟩ := Option.isSome_iff_exists.1 busy
    exact clockEdge_busy_congr (s := { s with host := rest }) hc rst
  · exact ⟨by simp [State.cmdReady, hr], _, step_reset hr, rfl, applyReset_inFlight _⟩

/-- Settles O20: the word that completes runs as the command it decodes to. -/
theorem stepRunsTheDecodedCommand : Obligations.StepRunsTheDecodedCommand := by
  intro s w i hf hr hd
  rw [step_completes hr hf rfl]
  exact runWord_eq_exec hd _

/-- Settles O21: the placed word is in flight and completes at the coming edge, where the host drives nothing. -/
theorem placedWordRunsNext : Obligations.PlacedWordRunsNext :=
  fun s w i h => stepRunsTheDecodedCommand (s.withFetchWord 40 w) _ i rfl rfl (decode_of_decodeTableWord h)

end Sys2Proof.Machine
end

section
/-! SUPPORT. The order in which a command word is processed (60_exceptions.md R205), the causes and the effect of a fault
(R200, R202-R206), and that FAULTED ignores every command (R207). -/

namespace Sys2Proof.Machine

/-- Settles O23: a command other than INIT faults by phase. -/
theorem misuseRaisesThePhaseFault : Obligations.MisuseRaisesThePhaseFault :=
  fun _ hi _ => ⟨exec_uninit hi, exec_finalized hi⟩

/-- Settles O22: a word in FAULTED, an illegal word, and a command's word, which runs as the command. -/
theorem commandStepOrder : Obligations.CommandStepOrder := by
  refine fun w s => ⟨runWord_faulted w, fun hp ⟨why, hd⟩ => runWord_illegal hd hp, fun _ hd => runWord_eq_exec hd s,
    fun i hd hi hp => ?_, fun i hd hi hp => ?_, fun i hd _ => runWord_eq_exec hd s⟩
  · exact (runWord_eq_exec hd s).trans (exec_uninit hi hp)
  · exact (runWord_eq_exec hd s).trans (exec_finalized hi hp)

/-- Why the word `w`, completing in phase `p`, raises the fault `code`: the three causes of 60_exceptions.md R202, R203 and
R204 (`runWord_enters_faulted`). -/
def FaultCause (w : CmdWord) (p : Phase) (code : FaultCode) : Prop :=
  (code = .illegalCommand ∧ ∃ why, decode w = .illegal why) ∨
  (code = .useBeforeInit ∧ p = .uninit ∧ ∃ i, decode w = .command i ∧ i ≠ .init) ∨
  (code = .misuseAfterFinalize ∧ p = .finalized ∧ ∃ i, decode w = .command i ∧ i ≠ .init)

theorem FaultCause.code_ne_none {w : CmdWord} {p : Phase} {code : FaultCode} (h : FaultCause w p code) :
    code ≠ .none := by
  obtain ⟨rfl, -⟩ | ⟨rfl, -⟩ | ⟨rfl, -⟩ := h
  · decide
  · decide
  · decide

/-- A command that takes effect does not enter FAULTED. -/
theorem commandBody_phase_ne_faulted (i : Instr) {s : State} (hp : s.phase ≠ .faulted) :
    (commandBody i s).phase ≠ .faulted := by
  cases i <;> simp [commandBody, hp]

/-- A word that enters FAULTED has one of the three causes and does what fault entry does. -/
theorem runWord_enters_faulted {w : CmdWord} {s t : State} (h : runWord w s = .next t) (hp : s.phase ≠ .faulted)
    (ht : t.phase = .faulted) : ∃ code, FaultCause w s.phase code ∧ t = raiseFault code s := by
  obtain ⟨hf, -⟩ | ⟨-, illegal, rfl⟩ | ⟨-, i, hd, hi⟩ := runWord_cases h
  · exact absurd hf hp
  · exact ⟨_, .inl ⟨rfl, illegal⟩, rfl⟩
  · obtain ⟨hf, -⟩ | ⟨notInit, uninit, rfl⟩ | ⟨notInit, finalized, rfl⟩ | ⟨-, rfl⟩ := exec_cases_body hi
    · exact absurd hf hp
    · exact ⟨_, .inr (.inl ⟨rfl, uninit, i, hd, notInit⟩), rfl⟩
    · exact ⟨_, .inr (.inr ⟨rfl, finalized, i, hd, notInit⟩), rfl⟩
    · exact absurd ht (commandBody_phase_ne_faulted i hp)

/-- A step that enters FAULTED completes a word that has one of the three causes, and does what fault entry does. -/
theorem step_enters_faulted {s t : State} (h : step s = .next t) (hp : s.phase ≠ .faulted) (ht : t.phase = .faulted) :
    ∃ c code, s.inFlight = some c ∧ FaultCause c.word s.phase code ∧ t = raiseFault code (retire (passEdge s)) := by
  obtain ⟨-, uninit⟩ | ⟨hr, -, -, c, hc, h0, -⟩ := phaseChangesOnlySo s t h (ht ▸ hp.symm)
  · cases uninit.symm.trans ht
  · rw [step_completes hr hc h0] at h
    obtain ⟨code, cause, rfl⟩ := runWord_enters_faulted h hp ht
    exact ⟨c, code, hc, cause, rfl⟩

/-- Bits [3:0] of STATUS are its fields. -/
theorem status_low (s : State) : s.status.extractLsb' 0 4 = s.statusFields := by
  ext k hk
  rw [← BitVec.getLsbD_eq_getElem, ← BitVec.getLsbD_eq_getElem, BitVec.getLsbD_extractLsb', status_getLsbD]
  simp [hk]

/-- In FAULTED with no command in flight, STATUS shows FAULT_CODE above the code of FAULTED. -/
theorem statusFields_faulted {s : State} (idle : s.inFlight = none) (hp : s.phase = .faulted) :
    s.statusFields = s.faultCode.code ++ 3#2 := by
  simp [State.statusFields, (busy_eq_false_iff s).2 idle, hp, Phase.code]

/-- Settles O25: the cause of the fault that the step enters. -/
theorem faultsHaveThreeCauses : Obligations.FaultsHaveThreeCauses := by
  intro s t h hp ht
  obtain ⟨c, code, hc, cause, rfl⟩ := step_enters_faulted h hp ht
  exact ⟨c, hc, cause⟩

/-- Settles O24: the step does what fault entry does, on the state in which the command has ended. -/
theorem faultEntryIsPrecise : Obligations.FaultEntryIsPrecise := by
  intro s t h hp ht
  obtain ⟨c, code, -, cause, rfl⟩ := step_enters_faulted h hp ht
  refine ⟨cause.code_ne_none, fun inv => faultCode_of_faultInv inv hp, rfl, ?_⟩
  rw [status_low]
  exact statusFields_faulted rfl ht

/-- In FAULTED a step without reset writes the command in flight and the model's own fields alone. -/
theorem step_faulted {s : State} (hp : s.phase = .faulted) (hr : s.input.rst = false) :
    ∃ t, step s = .next t ∧
      t = { s with inFlight := t.inFlight, host := s.host.tail, freeCount := t.freeCount } := by
  have ignored (w : CmdWord) : runWord w (retire (passEdge s)) = .next (retire (passEdge s)) := runWord_faulted w hp
  obtain ⟨t, h⟩ := clockEdge_answers s.input (s := passEdge s) fun w => ⟨_, ignored w⟩
  refine ⟨t, h, ?_⟩
  obtain ⟨reset, -⟩ | ⟨-, c, -, -, hw⟩ | ⟨-, c, -, -, rfl⟩ | ⟨-, -, -, rfl⟩ | ⟨-, -, -, rfl⟩ := clockEdge_cases h
  · cases hr.symm.trans reset
  · cases (ignored c.word).symm.trans hw
    rfl
  · rfl
  · rfl
  · rfl

/-- Only reset leaves FAULTED. -/
theorem step_leaves_faulted {s t : State} (hp : s.phase = .faulted) (h : step s = .next t) (ht : t.phase ≠ .faulted) :
    s.input.rst = true := by
  obtain ⟨hr, -⟩ | ⟨-, notFaulted, -⟩ := phaseChangesOnlySo s t h (hp ▸ ht)
  · exact hr
  · exact absurd hp notFaulted

/-- Settles O26: a word, a command and a step each by what it does in FAULTED. -/
theorem faultedIgnoresEveryCommand : Obligations.FaultedIgnoresEveryCommand := by
  refine fun s hp => ⟨fun w => runWord_faulted w hp, fun i => exec_faulted i hp, by simp [State.digestValid, hp],
    fun idle hr offer => ?_, step_faulted hp, fun _ => step_leaves_faulted hp⟩
  exact ⟨_, _, step_accepts ((busy_eq_false_iff s).1 idle) hr offer, acceptWord_inFlight _ _, rfl⟩

end Sys2Proof.Machine
end

section
/-! SUPPORT. What reset leaves and what nothing reads before INIT (70_reset_and_hazards.md R230, R231). -/

namespace Sys2Proof.Machine

/-- Settles O29: the reset state is in UNINIT with no fault and no command in flight. -/
theorem resetMeetsTheInvariants : Obligations.ResetMeetsTheInvariants :=
  ⟨⟨indexInv_of_phase_ne (by decide), faultInv_of_none (by decide) rfl⟩, flightInv_of_none rfl⟩

/-- Right after a reset every bit of STATUS but PAD_MODE is 0. -/
theorem status_applyReset (s : State) : (applyReset s).status = 0#1 ++ padModeCode s.padMode ++ 0#6 := by
  have fields : (applyReset s).statusFields = FaultCode.none.code ++ Phase.uninit.code := rfl
  have valid : (applyReset s).digestValid = false := rfl
  have busy : (applyReset s).busy = false := rfl
  rw [State.status, fields, valid, busy, applyReset_padMode]
  cases s.padMode <;> rfl

/-- The digest is valid in FINALIZED alone (10_state.md R27). -/
theorem digestValid_of_phase_ne {s : State} (hp : s.phase ≠ .finalized) : s.digestValid = false := by
  simp [State.digestValid, hp]

/-- No digest is valid while `BUSY = 1` (10_state.md R27). -/
theorem digestValid_of_busy {s : State} (busy : s.busy = true) : s.digestValid = false := by
  simp [State.digestValid, busy]

/-- Settles O28: reset by what its step writes; in UNINIT the ports are functions of the registers that have a value,
INIT overwrites the others, and every other command faults. -/
theorem resetValues : Obligations.ResetValues := by
  refine ⟨fun s hr => ⟨_, step_reset hr, rfl, rfl, rfl, rfl, rfl, rfl, ?_⟩, fun _ _ => step_leaves_faulted,
    rfl, rfl, rfl, rfl, rfl, rfl, rfl, fun s A p b l n hp =>
    ⟨status_congr rfl rfl rfl rfl rfl, ?_, ?_, fun i hi => exec_uninit hi hp⟩⟩
  · rw [status_applyReset, passEdge_padMode]
    cases s.padMode <;> rfl
  · have notValid : s.digestValid = false := digestValid_of_phase_ne (by simp [hp])
    rw [digestPort_of_not_valid notValid]
    exact digestPort_of_not_valid notValid
  · have runs : s.phase ≠ .faulted := by simp [hp]
    rw [exec_init_runs runs]
    exact exec_init_runs runs

end Sys2Proof.Machine
end

section
/-! SUPPORT. The command in flight (70_reset_and_hazards.md R233, R236-R238): its edges count down with nothing else
changed, its effects come with the fall of BUSY, and FINALIZE's end the hash. -/

namespace Sys2Proof.Machine

/-- A command with edges left goes on: the edge is counted and no register written. -/
theorem step_countsDown {s : State} {c : InFlight} (hr : s.input.rst = false) (hf : s.inFlight = some c)
    (left : c.edgesLeft ≠ 0) : step s = .next (countDown c (passEdge s)) := by
  simp only [step_eq, clockEdge, hr, passEdge_inFlight, hf, left, Bool.false_eq_true, if_false]

/-- The state in which `k` edges of the command `c` in flight have passed since `s` (`runSteps_inFlight`). -/
def afterEdges (k : Nat) (c : InFlight) (s : State) : State :=
  { s with inFlight := some { c with edgesLeft := c.edgesLeft - k }, host := s.host.drop k }

theorem afterEdges_zero {c : InFlight} {s : State} (hf : s.inFlight = some c) : afterEdges 0 c s = s := by
  rw [afterEdges, Nat.sub_zero, ← hf]
  rfl

@[simp] theorem afterEdges_inFlight (k : Nat) (c : InFlight) (s : State) :
    (afterEdges k c s).inFlight = some { c with edgesLeft := c.edgesLeft - k } := rfl

/-- After `k` edges the host's entry `k` is the coming one. -/
theorem afterEdges_input (k : Nat) (c : InFlight) (s : State) : (afterEdges k c s).input = s.host.getD k .idle := by
  simp [State.input, afterEdges, List.headD_eq_head?_getD]

/-- The edge that follows the first `k` is the command's edge `k + 1`. -/
theorem countDown_passEdge_afterEdges (k : Nat) (c : InFlight) (s : State) :
    countDown { c with edgesLeft := c.edgesLeft - k } (passEdge (afterEdges k c s)) = afterEdges (k + 1) c s := by
  simp [countDown, passEdge, afterEdges, Nat.sub_sub]

/-- The command in flight goes on for the edges that it has left, by induction on them. -/
theorem runSteps_inFlight {s : State} {c : InFlight} (hf : s.inFlight = some c)
    (noReset : ∀ n ≤ c.edgesLeft, (s.host.getD n .idle).rst = false) (k : Nat) (hk : k ≤ c.edgesLeft) :
    runSteps k s = .next (afterEdges k c s) := by
  induction k with
  | zero => rw [afterEdges_zero hf]; rfl
  | succ k ih =>
    have before : k ≤ c.edgesLeft := Nat.le_of_succ_le hk
    have hr : (afterEdges k c s).input.rst = false := afterEdges_input k c s ▸ noReset k before
    rw [runSteps_succ_last k s (ih before), step_countsDown hr (afterEdges_inFlight k c s) (Nat.sub_ne_zero_of_lt hk),
      countDown_passEdge_afterEdges]

/-- Settles O34: the edges that are left count down, the next one completes the command, and `FlightInv` is its latency
bound. -/
theorem acceptedCommandCompletes : Obligations.AcceptedCommandCompletes := by
  intro s c hf noReset
  refine ⟨runSteps_inFlight hf noReset, ?_, fun bound => bound c hf⟩
  have hr : (afterEdges c.edgesLeft c s).input.rst = false := afterEdges_input _ c s ▸ noReset _ (Nat.le_refl _)
  rw [runSteps_succ_last _ s (runSteps_inFlight hf noReset _ (Nat.le_refl _)),
    step_completes hr (afterEdges_inFlight _ c s) (Nat.sub_self _)]
  simp [retire, passEdge, afterEdges]

/-- A clock edge after which `BUSY = 1` is a command's acceptance or a further edge of it. -/
theorem clockEdge_busy_frame {inp : PortInput} {s t : State} (h : clockEdge inp s = .next t) (busy : t.busy = true) :
    t = { s with inFlight := t.inFlight, freeCount := t.freeCount } := by
  have inFlight : t.inFlight ≠ none := Option.isSome_iff_ne_none.1 busy
  obtain ⟨-, rfl⟩ | ⟨-, c, -, -, hw⟩ | ⟨-, c, -, -, rfl⟩ | ⟨-, -, -, rfl⟩ | ⟨-, -, -, rfl⟩ := clockEdge_cases h
  · exact absurd (applyReset_inFlight s) inFlight
  · exact absurd ((runWord_inFlight hw).trans (retire_inFlight s)) inFlight
  · rfl
  · rfl
  · rfl

/-- Settles O35: an edge that leaves `BUSY = 1` completes nothing, and the ports by the bits of STATUS. -/
theorem noEffectBeforeBusyFalls : Obligations.NoEffectBeforeBusyFalls := by
  refine ⟨fun s t h busy => clockEdge_busy_frame (s := passEdge s) h busy, fun s busy => ?_, fun s idle => ?_⟩
  · have notValid : s.digestValid = false := digestValid_of_busy busy
    exact ⟨(status_getLsbD s 4).trans busy, (status_getLsbD s 5).trans notValid, notValid,
      digestPort_of_not_valid notValid⟩
  · exact ⟨status_phase idle, status_faultCode idle, (status_getLsbD s 4).trans idle⟩

/-- Settles O39: the word in flight runs as FINALIZE, whose writes leave FINALIZED with no command in flight. -/
theorem finalizeEndsTheHash : Obligations.FinalizeEndsTheHash := by
  refine ⟨fun s w hf hr hd hp range => ?_, fun s h => ?_⟩
  · have runs : step s = .next (finishHash (retire (passEdge s))) := by
      rw [stepRunsTheDecodedCommand s w .finalize hf hr hd]
      exact exec_absorbing .finalize hp range
    have idle : (finishHash (retire (passEdge s))).busy = false :=
      (busy_eq_false_iff _).2 ((finishHash_inFlight _).trans (retire_inFlight _))
    have valid : (finishHash (retire (passEdge s))).digestValid = true := by simp [State.digestValid, idle]
    exact ⟨_, runs, idle, finishHash_phase _, valid, digestPort_of_valid valid⟩
  · obtain hp | busy := h
    · exact digestPort_of_not_valid (digestValid_of_phase_ne hp)
    · exact digestPort_of_not_valid (digestValid_of_busy busy)

end Sys2Proof.Machine
end
